-- ==== Sys2Proof/Word.lean ====
section
/-! DEFINITION. The word types of HAM74: the data formats of 30_encoding.md section 1 and the command word of its section 3.
Every value of HAM74 is unsigned (00_scope.md rule R11), so each format is a plain bit vector. -/

namespace Sys2Proof

/-- A Symbol `[d1, d2, d3, d4]` on `S[3:0]`, `S[3] = d1` (30_encoding.md rule R50). -/
abbrev Symbol := BitVec 4

/-- A Codeword `[c1, ..., c7]` on `C[6:0]`, `C[6] = c1` (30_encoding.md rule R51). -/
abbrev Codeword := BitVec 7

/-- A Syndrome `(s3, s2, s1)`, `s3` the most significant bit (30_encoding.md rule R52). -/
abbrev Syndrome := BitVec 3

/-- A command word `CMD[9:0]` (30_encoding.md rule R55). -/
abbrev CmdWord := BitVec 10

/-- The operation select `OP = CMD[9:7]` (30_encoding.md rule R55). -/
abbrev OpSelect := BitVec 3

/-- The argument `ARG = CMD[6:0]` (30_encoding.md rule R55). -/
abbrev Arg := BitVec 7

end Sys2Proof
end

