-- ==== Sys2Proof/Syntax.lean ====
section
/-! DEFINITION. The operations of HAM74, one constructor per row of spec/opcode_table.json. A row is selected by OP alone
(30_encoding.md rule R56), so every constructor carries the whole argument field: the operand check of rule R60 belongs to
the operation's meaning, where the spec's pseudocode has it. -/

namespace Sys2Proof

inductive Instr where
  /-- ENC, OP = 0 (41_encoder.md rule R80). -/
  | enc (arg : Arg)
  /-- DECN, OP = 2 (42_decoder.md rule R96). -/
  | decn (arg : Arg)
  /-- DECC, OP = 3 (42_decoder.md rule R97). -/
  | decc (arg : Arg)
  /-- CHBEGIN, OP = 4 (43_channel.md rule R111). -/
  | chbegin (arg : Arg)
  /-- INJ, OP = 5 (43_channel.md rule R114). -/
  | inj (arg : Arg)
  /-- The reserved operation select 1 (30_encoding.md rule R59). -/
  | reservedOp1 (arg : Arg)
  /-- The reserved operation select 6 (30_encoding.md rule R59). -/
  | reservedOp6 (arg : Arg)
  /-- The reserved operation select 7 (30_encoding.md rule R59). -/
  | reservedOp7 (arg : Arg)
  deriving DecidableEq, Repr

end Sys2Proof
end

