-- ==== Sys2Proof/WellFormed.lean ====
section
/-! DEFINITION. Which command words pass the operand check of 30_encoding.md rule R60 (the table's legal_match and
legal_mask). An ill-formed instruction still has a meaning: it takes the fault the spec names for it. -/

namespace Sys2Proof

/-- ENC takes a Symbol: `ARG[6:4]` must be zero (30_encoding.md rules R57, R60 (a)). -/
def encArgFits (arg : Arg) : Bool := decide (arg.toNat < 16)

/-- INJ takes one bit: `ARG[6:1]` must be zero (30_encoding.md rules R57, R60 (b)). -/
def injArgFits (arg : Arg) : Bool := decide (arg.toNat < 2)

/-- CHBEGIN takes no argument: `ARG` must be zero (30_encoding.md rules R57, R60 (c)). -/
def chbeginArgZero (arg : Arg) : Bool := decide (arg.toNat = 0)

/-- The words that select an operation and pass its operand check; a reserved OP selects none (rule R59). -/
def Instr.wellFormed : Instr → Bool
  | .enc arg => encArgFits arg
  | .decn _ => true
  | .decc _ => true
  | .chbegin arg => chbeginArgZero arg
  | .inj arg => injArgFits arg
  | .reservedOp1 _ => false
  | .reservedOp6 _ => false
  | .reservedOp7 _ => false

end Sys2Proof
end

