-- ==== Sys2Proof/Decode.lean ====
section
/-! DEFINITION. The command decoder and its encoder (30_encoding.md section 3). Every 10-bit word falls under exactly one row
(rule R61), so decoding a command word is total; a number too wide for the command port is rejected by name. -/

namespace Sys2Proof

/-- `OP = CMD[9:7]` (30_encoding.md rule R55). -/
def opField (cmd : CmdWord) : OpSelect := cmd.extractLsb' 7 3

/-- `ARG = CMD[6:0]` (30_encoding.md rule R55). -/
def argField (cmd : CmdWord) : Arg := cmd.extractLsb' 0 7

/-- The operation map of 30_encoding.md rule R56, by OP alone. -/
def decode (cmd : CmdWord) : Instr :=
  match (opField cmd).toNat with
  | 0 => .enc (argField cmd)
  | 1 => .reservedOp1 (argField cmd)
  | 2 => .decn (argField cmd)
  | 3 => .decc (argField cmd)
  | 4 => .chbegin (argField cmd)
  | 5 => .inj (argField cmd)
  | 6 => .reservedOp6 (argField cmd)
  | _ => .reservedOp7 (argField cmd)

/-- Why a number is no command word. -/
inductive DecodeError where
  /-- It has a bit above `CMD[9]`: every command is 10 bits (30_encoding.md rule R62). -/
  | widerThanCommandWord
  deriving DecidableEq, Repr

/-- Decode a number as a command word, rejecting by name what does not fit the 10 bits (30_encoding.md rules R55, R62;
log 10). -/
def decodeWord (w : Nat) : Except DecodeError Instr :=
  if w < 1024 then .ok (decode (BitVec.ofNat 10 w)) else .error .widerThanCommandWord

/-- The instruction the decoder reads from the low `nbits` bits of `w`, numbered as spec/opcode_table.json numbers them. A
command word is one word: there is no byte order and no operand word (30_encoding.md rule R62). -/
def decodeTableWord (nbits w : Nat) : Option Instr :=
  match decodeWord (w % 2 ^ nbits) with
  | .ok i => some i
  | .error _ => none

/-- The operation select of each row (30_encoding.md rule R56). -/
def opOf : Instr → OpSelect
  | .enc _ => 0
  | .reservedOp1 _ => 1
  | .decn _ => 2
  | .decc _ => 3
  | .chbegin _ => 4
  | .inj _ => 5
  | .reservedOp6 _ => 6
  | .reservedOp7 _ => 7

/-- The argument an instruction carries. -/
def argOf : Instr → Arg
  | .enc a => a
  | .reservedOp1 a => a
  | .decn a => a
  | .decc a => a
  | .chbegin a => a
  | .inj a => a
  | .reservedOp6 a => a
  | .reservedOp7 a => a

/-- The command word of an instruction: `CMD = {OP, ARG}` (30_encoding.md rules R55, R56). -/
def encode (i : Instr) : CmdWord := opOf i ++ argOf i

/-! Each row's decoding, on a word written out from its pattern in 30_encoding.md rule R57 (opcode_table.json for the
reserved rows). -/

theorem decode_word_enc : decode 0b0000001011#10 = .enc 0b0001011#7 := by decide

theorem decode_word_reservedOp1 : decode 0b0011010101#10 = .reservedOp1 0b1010101#7 := by decide

theorem decode_word_decn : decode 0b0100100011#10 = .decn 0b0100011#7 := by decide

theorem decode_word_decc : decode 0b0110100011#10 = .decc 0b0100011#7 := by decide

theorem decode_word_chbegin : decode 0b1000000000#10 = .chbegin 0#7 := by decide

theorem decode_word_inj : decode 0b1010000001#10 = .inj 0b0000001#7 := by decide

theorem decode_word_reservedOp6 : decode 0b1100000001#10 = .reservedOp6 0b0000001#7 := by decide

theorem decode_word_reservedOp7 : decode 0b1111111111#10 = .reservedOp7 0b1111111#7 := by decide

end Sys2Proof
end

