-- ==== Sys2Proof/Config.lean ====
section
/-! DEFINITION. What an implementation of HAM74 fixes: the two named parameters of 00_scope.md rule R6.
The spec leaves no other value open and no instruction's result undefined, so there is no opaque free value here: the draw of
an INJ is a free INPUT of the step (10_state.md rule R36) and stands in the port values the host issues (State.lean). -/

namespace Sys2Proof

/-- The named parameters (00_scope.md rule R6): `w` fraction bits of the error-rate threshold and of the draw, `cntw` bits of
each statistics counter. They are arguments of the model: every definition below takes them as they come, so that a
statement over all states speaks of every (W, CNTW). -/
structure Params where
  w : Nat
  cntw : Nat
  deriving DecidableEq, Repr

/-- The constraints of 00_scope.md rule R6: W ≥ 1 and CNTW ≥ 3. -/
def Params.legal (p : Params) : Bool := decide (1 ≤ p.w) && decide (3 ≤ p.cntw)

/-- The suggested defaults of 00_scope.md rule R6, used in `State.reset` (DESIGN CHOICE, log 1). -/
def Params.suggested : Params := ⟨16, 32⟩

/-- The fixed constants of the code (00_scope.md rule R5). -/
def Params.blockSize : Nat := 7

/-- Channel bits of one payload byte: two codewords (00_scope.md rule R5). -/
def Params.bitsPerByte : Nat := 14

end Sys2Proof
end

