-- ==== Sys2Proof/Machine/State.lean ====
section
/-! DEFINITION. The state of HAM74: the eight state elements of 10_state.md rule R22, and beside them the model's own fields
(the parameters, the port values of a step and the result outputs), which rule R36 counts as inputs, outputs or parameters
of a step. All of it is plain data. -/

namespace Sys2Proof.Machine

/-- The result outputs of one step (10_state.md rule R33). -/
structure Outputs where
  /-- `RES[6:0]`. -/
  res : BitVec 7
  /-- `WASC`. -/
  wasc : Bool
  /-- `ERR`. -/
  err : Bool
  /-- `ECODE[2:0]`. -/
  ecode : BitVec 3
  deriving DecidableEq, Repr

/-- The values on the input ports during one step (10_state.md rules R31, R32), for `w` fraction bits. -/
structure Issue (w : Nat) where
  /-- `RST`. -/
  rst : Bool
  /-- `CMD[9:0]`. -/
  cmd : CmdWord
  /-- `RATE_IN[W:0]`. -/
  rateIn : BitVec (w + 1)
  /-- `RND_IN[W-1:0]`, the draw: a free input under no law (10_state.md rule R36). -/
  rndIn : BitVec w
  deriving DecidableEq, Repr

/-- The causes of a DomainError (60_exceptions.md rule R152). -/
inductive Cause where
  /-- An argument too large for its operand: ENC, INJ. -/
  | range
  /-- A rate above 1: CHBEGIN. -/
  | rate
  /-- A reserved OP, or an argument where CHBEGIN has none. -/
  | reserved
  /-- The pass is full: INJ. -/
  | overflow
  deriving DecidableEq, Repr

/-- A HAM74 with parameters `p`. The first eight fields are its complete architectural state (10_state.md rule R22); the
others are the model's own (logs 2, 4, 5, 7). -/
structure Ham74 (p : Params) where
  /-- `RATE`, W+1 bits (10_state.md rule R23). -/
  rate : BitVec (p.w + 1)
  /-- `TOTAL_BITS`, CNTW bits (10_state.md rule R24). -/
  totalBits : BitVec p.cntw
  /-- `TOTAL_FLIPS`, CNTW bits (10_state.md rule R25). -/
  totalFlips : BitVec p.cntw
  /-- `UNCORR_BLOCKS`, CNTW bits (10_state.md rule R26). -/
  uncorrBlocks : BitVec p.cntw
  /-- `POS`, 3 bits (10_state.md rule R27). -/
  pos : BitVec 3
  /-- `BLKF`, 3 bits (10_state.md rule R28). -/
  blkf : BitVec 3
  /-- `FAULT`, 1 bit, sticky (10_state.md rule R29). -/
  fault : Bool
  /-- `FCODE`, 3 bits (10_state.md rule R29). -/
  fcode : BitVec 3
  /-- Whether a reset has happened yet (70_reset_and_hazards.md rule R170; U26). -/
  resetSeen : Bool
  /-- The value on `RATE_IN` during the step (10_state.md rule R32). -/
  rateIn : BitVec (p.w + 1)
  /-- The value on `RND_IN` during the step (10_state.md rule R32). -/
  rndIn : BitVec p.w
  /-- The port values of the steps the host has yet to issue, oldest first (10_state.md rule R21). -/
  pending : List (Issue p.w)
  /-- The result outputs of the step that led to this state, if it was an operation (10_state.md rule R33). -/
  out : Option Outputs
  deriving DecidableEq, Repr

/-- The whole state: the parameters and the machine they fix. No step writes `params` (log 1). -/
structure State where
  params : Params
  ham : Ham74 params
  deriving DecidableEq, Repr

/-- Why a step stops. HAM74 itself never stops: a DomainError is a next state (60_exceptions.md rule R154). -/
inductive Fault where
  /-- Raised by `step` alone, when the state's parameters break 00_scope.md rule R6 (W ≥ 1, CNTW ≥ 3). Safe: no such HAM74
  exists (log 6). -/
  | illegalParams
  deriving DecidableEq, Repr

/-- Why a step has no meaning. -/
inductive Refusal where
  /-- Raised by an arm of `exec` whose instruction has no meaning yet. Safe. Every instruction has one, so no arm raises
  it. -/
  | notModelled (mnemonic : String)
  /-- Raised by `step` alone, for a command issued before the first reset (93_implementation_defined.md U26). Safe: the spec
  gives such a step no meaning (log 5). -/
  | beforeFirstReset
  deriving DecidableEq, Repr

/-- HAM74 with parameters `p` right after reset: every state element zero (10_state.md rule R35), no outputs
(70_reset_and_hazards.md rule R170). The port values and the empty list of issues are the model's choice (logs 2, 7). -/
def Ham74.reset (p : Params) : Ham74 p where
  rate := 0
  totalBits := 0
  totalFlips := 0
  uncorrBlocks := 0
  pos := 0
  blkf := 0
  fault := false
  fcode := 0
  resetSeen := true
  rateIn := 0
  rndIn := 0
  pending := []
  out := none

/-- The machine right after reset, with the suggested parameters (log 1). -/
def State.reset : State := ⟨Params.suggested, Ham74.reset Params.suggested⟩

end Sys2Proof.Machine
end

