-- ==== Sys2Proof/Machine/Operands.lean ====
section
/-! DEFINITION. How operands are read from ARG and the side ports, and the operand checks (30_encoding.md rules R57, R58,
R60). -/

namespace Sys2Proof.Machine

/-- The bit at 1-based position `k` of a vector: position 1 is the most significant bit, `V[n-k] = bk`
(00_scope.md rules R7, R8). -/
def bitAt {n : Nat} (v : BitVec n) (k : Nat) : Bool := v.getLsbD (n - k)

/-- The Symbol `ARG[3:0]` of ENC (30_encoding.md rule R57). -/
def symbolOf (arg : Arg) : Symbol := arg.extractLsb' 0 4

/-- The input stream bit `ARG[0]` of INJ (30_encoding.md rule R57). -/
def streamBitOf (arg : Arg) : Bool := arg.getLsbD 0

/-- `ARG[6:4] != 0`: the argument does not fit a Symbol (30_encoding.md rule R60 (a)). -/
def encArgTooLarge (arg : Arg) : Bool := decide (arg.extractLsb' 4 3 ≠ 0#3)

/-- `ARG[6:1] != 0`: the argument is not a bit (30_encoding.md rule R60 (b)). -/
def injArgTooLarge (arg : Arg) : Bool := decide (arg.extractLsb' 1 6 ≠ 0#6)

/-- `ARG != 0`: CHBEGIN has no argument (30_encoding.md rule R60 (c)). -/
def chbeginArgPresent (arg : Arg) : Bool := decide (arg ≠ 0#7)

/-- `RATE_IN > 2^W`: the rate is above 1 (30_encoding.md rule R60 (d)). -/
def rateAboveOne {p : Params} (h : Ham74 p) : Bool := decide (2 ^ p.w < h.rateIn.toNat)

/-- `TOTAL_BITS == 2^CNTW - 1`: the pass is full (43_channel.md rule R116). -/
def passFull {p : Params} (h : Ham74 p) : Bool := decide (h.totalBits.toNat = 2 ^ p.cntw - 1)

end Sys2Proof.Machine
end

