-- ==== Sys2Proof/Machine/Flags.lean ====
section
/-! DEFINITION. The flag-like outputs and the cause codes. HAM74 has no condition codes (10_state.md section 4): what there is
are the outputs `WASC`, `ERR`, `ECODE` of a step and the cause codes kept in `FCODE`. -/

namespace Sys2Proof.Machine

/-- The cause codes (60_exceptions.md rule R152). -/
def causeCode : Cause → BitVec 3
  | .range => 1
  | .rate => 2
  | .reserved => 3
  | .overflow => 4

/-- `WASC = 1` if and only if the operation corrects and the Syndrome is not zero (42_decoder.md rule R98). -/
def wasCorrected (correctErrors : Bool) (syn : Syndrome) : Bool := correctErrors && decide (syn ≠ 0#3)

/-- The outputs of an operation that completes: `ERR = 0`, `ECODE = 0` (10_state.md rule R33). -/
def resultOutputs (res : BitVec 7) (wasc : Bool) : Outputs := ⟨res, wasc, false, 0⟩

/-- The outputs of a faulting or refused operation: `RES = 0`, `WASC = 0`, `ERR = 1` (60_exceptions.md rules R154, R155). -/
def errorOutputs (code : BitVec 3) : Outputs := ⟨0, false, true, code⟩

end Sys2Proof.Machine
end

