-- ==== Sys2Proof/Machine/Ops.lean ====
section
/-! DEFINITION. The named operations over the state that the meanings share: presenting outputs, taking a DomainError, the
refusal while faulted, the fault wrapper around every operation, reset, and the port values of a step. -/

namespace Sys2Proof.Machine

/-- What a meaning and a step answer. -/
abbrev Result := Host.Outcome State Fault Refusal

/-- Present the result outputs of the step (10_state.md rule R33). -/
def present {p : Params} (o : Outputs) (h : Ham74 p) : Ham74 p := { h with out := some o }

/-- `raise DomainError(code)`: `FAULT <- 1`, `FCODE <- code`, the outputs forced, nothing else written
(60_exceptions.md rule R154). Control goes nowhere, so there is no pc or status to save. -/
def raiseDomainError {p : Params} (c : Cause) (h : Ham74 p) : Ham74 p :=
  present (errorOutputs (causeCode c)) { h with fault := true, fcode := causeCode c }

/-- Refusal while faulted: nothing written, `ECODE = FCODE` (60_exceptions.md rule R155). -/
def refuseWhileFaulted {p : Params} (h : Ham74 p) : Ham74 p := present (errorOutputs h.fcode) h

/-- The fault wrapper around every operation, in the order of 60_exceptions.md rule R157: `FAULT` first, then the
operation's own checks in their order (`check` answers the first that applies), else the operation executes. -/
def operate {p : Params} (check : Ham74 p → Option Cause) (effect : Ham74 p → Ham74 p) (h : Ham74 p) : Ham74 p :=
  if h.fault then refuseWhileFaulted h
  else
    match check h with
    | some c => raiseDomainError c h
    | none => effect h

/-- The machine inside a state changes, its parameters do not (log 1). -/
def mapHam (s : State) (f : Ham74 s.params → Ham74 s.params) : State := ⟨s.params, f s.ham⟩

/-- Reset, the only return from a fault (60_exceptions.md rule R156): every state element zero, no outputs
(70_reset_and_hazards.md rule R170). The port values and the issues to come are the host's and stay. -/
def applyReset {p : Params} (h : Ham74 p) : Ham74 p :=
  { Ham74.reset p with rateIn := h.rateIn, rndIn := h.rndIn, pending := h.pending }

/-- The host issues nothing: nothing happens (60_exceptions.md rule R160), and no operation presents outputs
(10_state.md rule R33; log 3). -/
def idle {p : Params} (h : Ham74 p) : Ham74 p := { h with out := none }

/-- The port values of the step that now begins stand on the side ports (10_state.md rule R32), and the issues that follow
it remain. -/
def latch {p : Params} (i : Issue p.w) (rest : List (Issue p.w)) (h : Ham74 p) : Ham74 p :=
  { h with rateIn := i.rateIn, rndIn := i.rndIn, pending := rest }

/-- The host issues `i` next, before whatever else it has yet to issue. -/
def issueNext (s : State) (i : Issue s.params.w) : State :=
  mapHam s fun h => { h with pending := i :: h.pending }

/-- The status outputs, visible at all times without side effect (10_state.md rule R34). -/
structure Status (cntw : Nat) where
  totalBits : BitVec cntw
  totalFlips : BitVec cntw
  uncorrBlocks : BitVec cntw
  fault : Bool
  fcode : BitVec 3
  deriving DecidableEq, Repr

/-- What the host sees of the state; `RATE`, `POS` and `BLKF` have no port (10_state.md rule R34). -/
def statusOf {p : Params} (h : Ham74 p) : Status p.cntw :=
  ⟨h.totalBits, h.totalFlips, h.uncorrBlocks, h.fault, h.fcode⟩

end Sys2Proof.Machine
end

