-- ==== Sys2Proof/Machine/Channel.lean ====
section
/-! DEFINITION. The bit-error injector and its statistics, operations CHBEGIN and INJ (43_channel.md). -/

namespace Sys2Proof.Machine

/-- CHBEGIN's checks: RESERVED before RATE (43_channel.md rule R111; 60_exceptions.md rule R157). -/
def chbeginCheck {p : Params} (arg : Arg) (h : Ham74 p) : Option Cause :=
  if chbeginArgPresent arg then some .reserved
  else if rateAboveOne h then some .rate
  else none

/-- The writes of CHBEGIN: the rate is taken from `RATE_IN`, the counters and the block are cleared
(43_channel.md rule R111). -/
def beginPass {p : Params} (h : Ham74 p) : Ham74 p :=
  { h with rate := h.rateIn, totalBits := 0, totalFlips := 0, uncorrBlocks := 0, pos := 0, blkf := 0 }

/-- CHBEGIN (43_channel.md rule R111). -/
def chbeginOp {p : Params} (arg : Arg) : Ham74 p → Ham74 p :=
  operate (chbeginCheck arg) fun h => present (resultOutputs 0 false) (beginPass h)

/-- INJ's checks: RANGE before OVERFLOW (43_channel.md rule R114; 60_exceptions.md rule R157). -/
def injCheck {p : Params} (arg : Arg) (h : Ham74 p) : Option Cause :=
  if injArgTooLarge arg then some .range
  else if passFull h then some .overflow
  else none

/-- The flip decision: `zext_{W+1}(RND_IN) < RATE`, unsigned and strict (43_channel.md rule R117). -/
def flips {p : Params} (h : Ham74 p) : Bool := decide (h.rndIn.zeroExtend (p.w + 1) < h.rate)

/-- The writes of INJ for a bit that flips or not (43_channel.md rules R114, R118 to R120). -/
def countBit {p : Params} (flip : Bool) (h : Ham74 p) : Ham74 p :=
  { h with
    totalBits := h.totalBits + 1
    totalFlips := if flip then h.totalFlips + 1 else h.totalFlips
    uncorrBlocks := if flip && decide (h.blkf = 1) then h.uncorrBlocks + 1 else h.uncorrBlocks
    pos := if h.pos = 6 then 0 else h.pos + 1
    blkf := if h.pos = 6 then 0 else if flip then h.blkf + 1 else h.blkf }

/-- INJ's result: `b ^ flip` zero-extended onto `RES` (43_channel.md rule R114). -/
def injOutputs (bit flip : Bool) : Outputs := resultOutputs ((BitVec.ofBool (bit ^^ flip)).zeroExtend 7) false

/-- INJ (43_channel.md rule R114). -/
def injOp {p : Params} (arg : Arg) : Ham74 p → Ham74 p :=
  operate (injCheck arg) fun h => present (injOutputs (streamBitOf arg) (flips h)) (countBit (flips h) h)

/-- The meaning of CHBEGIN. -/
def execChbegin (arg : Arg) (s : State) : Result := .next (mapHam s (chbeginOp arg))

/-- The meaning of INJ. -/
def execInj (arg : Arg) (s : State) : Result := .next (mapHam s (injOp arg))

end Sys2Proof.Machine
end

