-- ==== Sys2Proof/Machine/Decoder.lean ====
section
/-! DEFINITION. The decoder, operations DECN and DECC (42_decoder.md): syndrome computer, syndrome-to-position mapper,
single-bit corrector, data extractor. -/

namespace Sys2Proof.Machine

/-- `s1 = c1 ^ c3 ^ c5 ^ c7` (42_decoder.md rule R91). -/
def syndrome1 (c : Codeword) : Bool := bitAt c 1 ^^ bitAt c 3 ^^ bitAt c 5 ^^ bitAt c 7

/-- `s2 = c2 ^ c3 ^ c6 ^ c7` (42_decoder.md rule R91). -/
def syndrome2 (c : Codeword) : Bool := bitAt c 2 ^^ bitAt c 3 ^^ bitAt c 6 ^^ bitAt c 7

/-- `s3 = c4 ^ c5 ^ c6 ^ c7` (42_decoder.md rule R91). -/
def syndrome3 (c : Codeword) : Bool := bitAt c 4 ^^ bitAt c 5 ^^ bitAt c 6 ^^ bitAt c 7

/-- The Syndrome `(s3, s2, s1)`, `syn = 4*s3 + 2*s2 + s1` (42_decoder.md rule R92). Internal: on no port and in no state
element (rule R99). -/
def syndromeOf (c : Codeword) : Syndrome :=
  BitVec.ofBool (syndrome3 c) ++ BitVec.ofBool (syndrome2 c) ++ BitVec.ofBool (syndrome1 c)

/-- The rows s1, s2, s3 of the parity-check matrix (42_decoder.md rule R101). -/
def parityCheckRows : List Codeword := [0b1010101, 0b0110011, 0b0001111]

/-- The constant table of the syndrome-to-position mapper: the flip mask of each Syndrome (42_decoder.md rule R93). -/
def flipMaskTable : List Codeword := [0x00, 0x40, 0x20, 0x10, 0x08, 0x04, 0x02, 0x01]

/-- The flip mask of a Syndrome (42_decoder.md rule R93). -/
def flipMask (syn : Syndrome) : Codeword := flipMaskTable.getD syn.toNat 0

/-- The single-bit corrector: the word after it (42_decoder.md rule R94). -/
def correctWord (correctErrors : Bool) (c : Codeword) : Codeword :=
  if wasCorrected correctErrors (syndromeOf c) then c ^^^ flipMask (syndromeOf c) else c

/-- The data extractor: positions 3, 5, 6, 7, in every case (42_decoder.md rule R95; 90_conflicts.md C1). -/
def extractData (c : Codeword) : Symbol :=
  BitVec.ofBool (bitAt c 3) ++ BitVec.ofBool (bitAt c 5) ++ BitVec.ofBool (bitAt c 6) ++ BitVec.ofBool (bitAt c 7)

/-- The whole decoder: Symbol and `wasCorrected` (42_decoder.md rule R90). -/
def decodeReceived (correctErrors : Bool) (c : Codeword) : Symbol × Bool :=
  (extractData (correctWord correctErrors c), wasCorrected correctErrors (syndromeOf c))

/-- The outputs of a decode: the Symbol zero-extended onto `RES` and `WASC` (30_encoding.md rule R65). -/
def decodeOutputs (correctErrors : Bool) (c : Codeword) : Outputs :=
  resultOutputs ((decodeReceived correctErrors c).1.zeroExtend 7) (decodeReceived correctErrors c).2

/-- DECN: every 7-bit word is legal (42_decoder.md rule R96). -/
def decnOp {p : Params} (arg : Arg) : Ham74 p → Ham74 p :=
  operate (fun _ => none) (present (decodeOutputs false arg))

/-- DECC: every 7-bit word is legal (42_decoder.md rule R97). -/
def deccOp {p : Params} (arg : Arg) : Ham74 p → Ham74 p :=
  operate (fun _ => none) (present (decodeOutputs true arg))

/-- The meaning of DECN. -/
def execDecn (arg : Arg) (s : State) : Result := .next (mapHam s (decnOp arg))

/-- The meaning of DECC. -/
def execDecc (arg : Arg) (s : State) : Result := .next (mapHam s (deccOp arg))

end Sys2Proof.Machine
end

