-- ==== Sys2Proof/Machine/Encoder.lean ====
section
/-! DEFINITION. The encoder, operation ENC (41_encoder.md). -/

namespace Sys2Proof.Machine

/-- `p1 = d1 ^ d2 ^ d4` (41_encoder.md rules R80, R81). -/
def parity1 (s : Symbol) : Bool := bitAt s 1 ^^ bitAt s 2 ^^ bitAt s 4

/-- `p2 = d1 ^ d3 ^ d4` (41_encoder.md rules R80, R81). -/
def parity2 (s : Symbol) : Bool := bitAt s 1 ^^ bitAt s 3 ^^ bitAt s 4

/-- `p3 = d2 ^ d3 ^ d4` (41_encoder.md rules R80, R81). -/
def parity3 (s : Symbol) : Bool := bitAt s 2 ^^ bitAt s 3 ^^ bitAt s 4

/-- The Codeword `{p1, p2, d1, p3, d2, d3, d4}` of a Symbol (41_encoder.md rule R80). -/
def encodeSymbol (s : Symbol) : Codeword :=
  BitVec.ofBool (parity1 s) ++ BitVec.ofBool (parity2 s) ++ BitVec.ofBool (bitAt s 1) ++ BitVec.ofBool (parity3 s)
    ++ BitVec.ofBool (bitAt s 2) ++ BitVec.ofBool (bitAt s 3) ++ BitVec.ofBool (bitAt s 4)

/-- The rows of the generator matrix, row k the Codeword of the Symbol with only dk set (41_encoder.md rule R85). -/
def generatorRows : List Codeword := [0x70, 0x4C, 0x2A, 0x69]

/-- The Codeword by the matrix: the sum modulo 2 of the rows whose data bit is set (41_encoder.md rule R85). -/
def encodeByMatrix (s : Symbol) : Codeword :=
  ((generatorRows.zipIdx 1).map fun (row, k) => if bitAt s k then row else 0).foldl (· ^^^ ·) 0

/-- ENC's operand check: RANGE (41_encoder.md rule R80). -/
def encCheck (arg : Arg) : Option Cause := if encArgTooLarge arg then some .range else none

/-- ENC (41_encoder.md rule R80). -/
def encOp {p : Params} (arg : Arg) : Ham74 p → Ham74 p :=
  operate (fun _ => encCheck arg) (present (resultOutputs (encodeSymbol (symbolOf arg)) false))

/-- The meaning of ENC. -/
def execEnc (arg : Arg) (s : State) : Result := .next (mapHam s (encOp arg))

end Sys2Proof.Machine
end

