-- ==== Sys2Proof/Machine/Reserved.lean ====
section
/-! DEFINITION. The reserved operation selects 1, 6 and 7: each raises DomainError(RESERVED), whatever ARG holds
(30_encoding.md rule R59). They are never a hint and never a no-op. -/

namespace Sys2Proof.Machine

/-- A command word that selects no operation (30_encoding.md rule R59); the refusal while faulted comes first
(60_exceptions.md rule R155). -/
def reservedOp {p : Params} : Ham74 p → Ham74 p := operate (fun _ => some .reserved) id

/-- The meaning of a word with OP = 1. -/
def execReservedOp1 (_arg : Arg) (s : State) : Result := .next (mapHam s reservedOp)

/-- The meaning of a word with OP = 6. -/
def execReservedOp6 (_arg : Arg) (s : State) : Result := .next (mapHam s reservedOp)

/-- The meaning of a word with OP = 7. -/
def execReservedOp7 (_arg : Arg) (s : State) : Result := .next (mapHam s reservedOp)

end Sys2Proof.Machine
end

