-- ==== Sys2Proof/Machine/Dispatch.lean ====
section
/-! DEFINITION. One arm per row of spec/opcode_table.json. -/

namespace Sys2Proof.Machine

def exec (i : Instr) (s : State) : Host.Outcome State Fault Refusal :=
  match i with
  | .enc arg => Sys2Proof.Machine.execEnc arg s
  | .decn arg => Sys2Proof.Machine.execDecn arg s
  | .decc arg => Sys2Proof.Machine.execDecc arg s
  | .chbegin arg => Sys2Proof.Machine.execChbegin arg s
  | .inj arg => Sys2Proof.Machine.execInj arg s
  | .reservedOp1 arg => Sys2Proof.Machine.execReservedOp1 arg s
  | .reservedOp6 arg => Sys2Proof.Machine.execReservedOp6 arg s
  | .reservedOp7 arg => Sys2Proof.Machine.execReservedOp7 arg s

end Sys2Proof.Machine
end

