-- ==== Sys2Proof/Machine/Issuing.lean ====
section
/-! DEFINITION. What one issue of the host does: the port values of a step decide between reset and an operation. HAM74
fetches nothing (10_state.md rule R21); this is the whole of it. -/

namespace Sys2Proof.Machine

/-- `RST` takes precedence over any command presented with it (70_reset_and_hazards.md rule R170; U35). A command before the
first reset has no meaning (U26). Otherwise the command word is decoded and executed. -/
def runIssue (rst : Bool) (cmd : CmdWord) (s : State) : Result :=
  if rst then .next (mapHam s applyReset)
  else if s.ham.resetSeen then exec (decode cmd) s
  else .refused .beforeFirstReset

/-- An issue that presents a command word with the side ports as they stand. -/
def issueOfWord (s : State) (cmd : CmdWord) : Issue s.params.w := ⟨false, cmd, s.ham.rateIn, s.ham.rndIn⟩

end Sys2Proof.Machine
end

