-- ==== Sys2Proof/Machine/Step.lean ====
section
/-! DEFINITION. One step of HAM74: the host's next issue, whole (00_scope.md rule R9). -/

namespace Sys2Proof.Machine

/-- One atomic step (00_scope.md rule R9; 20_memory.md rule R48). With nothing issued, nothing happens (log 3); parameters
that break 00_scope.md rule R6 are no HAM74 (log 6). -/
def step (s : State) : Host.Outcome State Fault Refusal :=
  if s.params.legal then
    match s.ham.pending with
    | [] => .next (mapHam s idle)
    | i :: rest => runIssue i.rst i.cmd (mapHam s (latch i rest))
  else .fault .illegalParams

/-- The host issues next the command word in the low `nbits` bits of `w`, with the side ports as they stand (log 9). -/
def State.withFetchWord (s : State) (nbits w : Nat) : State :=
  issueNext s (issueOfWord s (BitVec.ofNat 10 (w % 2 ^ nbits)))

end Sys2Proof.Machine
end

