-- ==== Sys2Proof/Machine/BitConversion.lean ====
section
/-! DEFINITION. The bit conversion helper functions (40_bit_conversion.md). They are no operations of HAM74; the host uses
them, and they fix the bit order of every value (00_scope.md rule R4). -/

namespace Sys2Proof.Machine

/-- Why a conversion fails. -/
inductive ConversionError where
  /-- `value >= 2^width` (40_bit_conversion.md rule R72). -/
  | domainError
  /-- `width = 0` is outside the domain and has no meaning (40_bit_conversion.md rule R71; U32; log 15). -/
  | zeroWidth
  deriving DecidableEq, Repr

/-- `bits_to_int`: the big-endian value of a sequence, 0 for the empty one (40_bit_conversion.md rule R70). -/
def bitsToInt : List Bool → Nat
  | [] => 0
  | b :: bs => b.toNat * 2 ^ bs.length + bitsToInt bs

/-- The `width` bits of a value, `bk = floor(value / 2^(width-k)) mod 2` (40_bit_conversion.md rule R71). -/
def bigEndianBits (value : Nat) : Nat → List Bool
  | 0 => []
  | width + 1 => decide (value / 2 ^ width % 2 = 1) :: bigEndianBits value width

/-- `int_to_bits`: rejects a value that does not fit, never truncates (40_bit_conversion.md rules R71, R72). -/
def intToBits (value width : Nat) : Except ConversionError (List Bool) :=
  if width = 0 then .error .zeroWidth
  else if 2 ^ width ≤ value then .error .domainError
  else .ok (bigEndianBits value width)

/-- The sequence a vector carries, position 1 first (00_scope.md rule R8). -/
def bitsOfVec {n : Nat} (v : BitVec n) : List Bool := (List.range n).map fun k => bitAt v (k + 1)

/-- The vector that carries a sequence of `n` bits (00_scope.md rule R8; 40_bit_conversion.md rule R74). -/
def vecOfBits (n : Nat) (bits : List Bool) : BitVec n := BitVec.ofNat n (bitsToInt bits)

end Sys2Proof.Machine
end

