-- ==== Sys2Proof/Machine/Assembler.lean ====
section
/-! DEFINITION. The assembler of 30_encoding.md section 6: the five mnemonics with their operands, the command word and side
ports each stands for (rule R63), the macros and their expansions (rule R64), and the reading of one source line. None of it
is behaviour of HAM74 (92_eei_decisions.md D21). -/

namespace Sys2Proof.Machine

/-- An operation as the assembler names it (30_encoding.md rule R63). -/
inductive AsmOp where
  | enc (s : Nat)
  | decn (c : Nat)
  | decc (c : Nat)
  | chbegin (t : Nat)
  | inj (b u : Nat)
  deriving DecidableEq, Repr

/-- The operand ranges of 30_encoding.md rule R63. The rule has an assembler reject an `s` above 15; that this one rejects a
`c`, `t`, `b` or `u` outside its range too is DESIGN CHOICE (log 14). -/
def asmOperandsFit (p : Params) : AsmOp → Bool
  | .enc s => decide (s ≤ 15)
  | .decn c => decide (c ≤ 127)
  | .decc c => decide (c ≤ 127)
  | .chbegin t => decide (t ≤ 2 ^ p.w)
  | .inj b u => decide (b ≤ 1) && decide (u < 2 ^ p.w)

/-- The instruction a line stands for (30_encoding.md rule R63). -/
def asmInstr : AsmOp → Instr
  | .enc s => .enc (BitVec.ofNat 7 s)
  | .decn c => .decn (BitVec.ofNat 7 c)
  | .decc c => .decc (BitVec.ofNat 7 c)
  | .chbegin _ => .chbegin 0
  | .inj b _ => .inj (BitVec.ofNat 7 b)

/-- What a line puts on `RATE_IN` (30_encoding.md rule R63); 0 where no operation samples it (log 14). -/
def asmRateIn : AsmOp → Nat
  | .chbegin t => t
  | _ => 0

/-- What a line puts on `RND_IN` (30_encoding.md rule R63); 0 where no operation samples it (log 14). -/
def asmRndIn : AsmOp → Nat
  | .inj _ u => u
  | _ => 0

/-- The port values of the step a line stands for, or none if the assembler rejects it (30_encoding.md rule R63;
log 14). -/
def assemble (p : Params) (op : AsmOp) : Option (Issue p.w) :=
  if asmOperandsFit p op then
    some ⟨false, encode (asmInstr op), BitVec.ofNat (p.w + 1) (asmRateIn op), BitVec.ofNat p.w (asmRndIn op)⟩
  else none

/-- `ENCBYTE v`: high nibble first (30_encoding.md rule R64). -/
def encByte (v : Nat) : List AsmOp := [.enc (v / 16), .enc (v % 16)]

/-- `INJ7 c, u1, ..., u7`: the seven bits of `c`, position 1 first, each with its draw (30_encoding.md rule R64). -/
def inj7 (c : Codeword) (draws : List Nat) : List AsmOp :=
  List.zipWith (fun b u => .inj b.toNat u) (bitsOfVec c) draws

/-- `DECBYTEC h, l` (30_encoding.md rule R64). -/
def decByteC (h l : Nat) : List AsmOp := [.decc h, .decc l]

/-- `DECBYTEN h, l` (30_encoding.md rule R64). -/
def decByteN (h l : Nat) : List AsmOp := [.decn h, .decn l]

/-- The 14 stream bits of `ENCBYTE`: the two results, high first (30_encoding.md rule R64). -/
def encByteStream (hi lo : Outputs) : List Bool := bitsOfVec hi.res ++ bitsOfVec lo.res

/-- The noisy word of `INJ7`: the seven result bits, first on the most significant side (30_encoding.md rule R64). -/
def inj7Word (outs : List Outputs) : Codeword := vecOfBits 7 (outs.map fun o => o.res.getLsbD 0)

/-- The byte of `DECBYTEC` and `DECBYTEN`: `(first result << 4) | second result` (30_encoding.md rule R64). -/
def decByteResult (hi lo : Outputs) : BitVec 8 :=
  ((hi.res.extractLsb' 0 4).zeroExtend 8 <<< 4) ||| (lo.res.extractLsb' 0 4).zeroExtend 8

/-! The reading of a source line. -/

/-- Why a source line is rejected. -/
inductive AsmError where
  /-- The first word is no mnemonic and no macro's name. -/
  | unknownMnemonic
  /-- An operand is no number in decimal, `0x` hexadecimal or `0b` binary. -/
  | badNumber
  /-- The line has too few or too many operands. -/
  | wrongOperandCount
  /-- An operand is outside the range the line's syntax gives it. -/
  | operandOutOfRange
  deriving DecidableEq, Repr

/-- The value of a digit, up to base 16, in either case. -/
def digitValue (c : Char) : Option Nat :=
  if '0' ≤ c ∧ c ≤ '9' then some (c.toNat - '0'.toNat)
  else if 'a' ≤ c ∧ c ≤ 'f' then some (c.toNat - 'a'.toNat + 10)
  else if 'A' ≤ c ∧ c ≤ 'F' then some (c.toNat - 'A'.toNat + 10)
  else none

/-- Read digits of one base onto what has been read so far. -/
def readDigits (base : Nat) : List Char → Nat → Option Nat
  | [], acc => some acc
  | c :: cs, acc =>
    match digitValue c with
    | some d => if d < base then readDigits base cs (acc * base + d) else none
    | none => none

/-- A number in decimal, `0x` hexadecimal or `0b` binary (30_encoding.md rule R63). -/
def readNumber : List Char → Option Nat
  | [] => none
  | ['0', 'x'] => none
  | ['0', 'b'] => none
  | '0' :: 'x' :: cs => readDigits 16 cs 0
  | '0' :: 'b' :: cs => readDigits 2 cs 0
  | cs => readDigits 10 cs 0

/-- A blank between words (log 14). -/
def isBlank (c : Char) : Bool := c == ' ' || c == '\t'

/-- A line without its comment: `;` starts one (30_encoding.md rule R63). -/
def stripComment (line : List Char) : List Char := line.takeWhile (· != ';')

/-- A line's text without the blanks around it. -/
def trimBlanks (cs : List Char) : List Char := ((cs.dropWhile isBlank).reverse.dropWhile isBlank).reverse

/-- Cut at every comma. -/
def splitCommas : List Char → List (List Char)
  | [] => [[]]
  | c :: cs =>
    if c == ',' then [] :: splitCommas cs
    else
      match splitCommas cs with
      | w :: ws => (c :: w) :: ws
      | [] => [[c]]

/-- Read every operand of a list, in order. -/
def readOperands : List (List Char) → Option (List Nat)
  | [] => some []
  | w :: ws =>
    match readNumber (trimBlanks w), readOperands ws with
    | some n, some ns => some (n :: ns)
    | _, _ => none

/-- The operations of a line from its first word and its operands: an operation by itself, a macro by its expansion
(30_encoding.md rules R63, R64). -/
def lineOps (mnemonic : List Char) (operands : List Nat) : Except AsmError (List AsmOp) :=
  if mnemonic = ['E', 'N', 'C'] then
    match operands with
    | [s] => .ok [.enc s]
    | _ => .error .wrongOperandCount
  else if mnemonic = ['D', 'E', 'C', 'N'] then
    match operands with
    | [c] => .ok [.decn c]
    | _ => .error .wrongOperandCount
  else if mnemonic = ['D', 'E', 'C', 'C'] then
    match operands with
    | [c] => .ok [.decc c]
    | _ => .error .wrongOperandCount
  else if mnemonic = ['C', 'H', 'B', 'E', 'G', 'I', 'N'] then
    match operands with
    | [t] => .ok [.chbegin t]
    | _ => .error .wrongOperandCount
  else if mnemonic = ['I', 'N', 'J'] then
    match operands with
    | [b, u] => .ok [.inj b u]
    | _ => .error .wrongOperandCount
  else if mnemonic = ['E', 'N', 'C', 'B', 'Y', 'T', 'E'] then
    match operands with
    | [v] => if v ≤ 255 then .ok (encByte v) else .error .operandOutOfRange
    | _ => .error .wrongOperandCount
  else if mnemonic = ['I', 'N', 'J', '7'] then
    match operands with
    | [c, u1, u2, u3, u4, u5, u6, u7] =>
      if c ≤ 127 then .ok (inj7 (BitVec.ofNat 7 c) [u1, u2, u3, u4, u5, u6, u7]) else .error .operandOutOfRange
    | _ => .error .wrongOperandCount
  else if mnemonic = ['D', 'E', 'C', 'B', 'Y', 'T', 'E', 'C'] then
    match operands with
    | [h, l] => .ok (decByteC h l)
    | _ => .error .wrongOperandCount
  else if mnemonic = ['D', 'E', 'C', 'B', 'Y', 'T', 'E', 'N'] then
    match operands with
    | [h, l] => .ok (decByteN h l)
    | _ => .error .wrongOperandCount
  else .error .unknownMnemonic

/-- One source line: its operations, none for a blank or comment line (30_encoding.md rule R63). A line that carries the
`-> result` of a listing is no source line here and is rejected: DESIGN CHOICE (log 14). -/
def readLine (p : Params) (line : List Char) : Except AsmError (List AsmOp) :=
  let text := trimBlanks (stripComment line)
  if text.isEmpty then .ok []
  else
    let operandText := trimBlanks (text.dropWhile (!isBlank ·))
    match if operandText.isEmpty then some [] else readOperands (splitCommas operandText) with
    | none => .error .badNumber
    | some operands =>
      match lineOps (text.takeWhile (!isBlank ·)) operands with
      | .error e => .error e
      | .ok ops => if ops.all (asmOperandsFit p) then .ok ops else .error .operandOutOfRange

end Sys2Proof.Machine
end

