-- ==== Sys2Proof/Machine/PassReference.lean ====
section
/-! DEFINITION. D0's `corrupt` as 43_channel.md rule R123 transcribes it, a loop over blocks of 7 bits. It is the reference
that a pass of CHBEGIN and INJ operations is compared with; no operation uses it. -/

namespace Sys2Proof.Machine

/-- The partition into consecutive blocks of 7, the last one possibly shorter, never empty (20_memory.md rule R45). -/
def blocksOf7 {α : Type} : List α → List (List α)
  | [] => []
  | a :: b :: c :: d :: e :: f :: g :: rest => [a, b, c, d, e, f, g] :: blocksOf7 rest
  | short => [short]

/-- What `corrupt_ref` returns: the noisy bits and (total, flips, uncorr) (43_channel.md rule R123). -/
structure Corrupted where
  noisy : List Bool
  total : Nat
  flips : Nat
  uncorr : Nat
  deriving DecidableEq, Repr

/-- The inner loop over the bits of one block: the noisy bits and `blockflips` (43_channel.md rule R123). -/
def corruptBlock (rate : Nat) : List (Bool × Nat) → List Bool × Nat
  | [] => ([], 0)
  | (b, draw) :: rest =>
    if draw < rate then ((b ^^ true) :: (corruptBlock rate rest).1, (corruptBlock rate rest).2 + 1)
    else (b :: (corruptBlock rate rest).1, (corruptBlock rate rest).2)

/-- The outer loop over the blocks (43_channel.md rule R123). -/
def corruptBlocks (rate : Nat) : List (List (Bool × Nat)) → Corrupted
  | [] => ⟨[], 0, 0, 0⟩
  | block :: rest =>
    let here := corruptBlock rate block
    let later := corruptBlocks rate rest
    ⟨here.1 ++ later.noisy, block.length + later.total, here.2 + later.flips,
      (if 1 < here.2 then 1 else 0) + later.uncorr⟩

/-- `corrupt_ref(bits, T, draws)` (43_channel.md rule R123). -/
def corruptRef (bits : List Bool) (rate : Nat) (draws : List Nat) : Corrupted :=
  corruptBlocks rate (blocksOf7 (bits.zip draws))

end Sys2Proof.Machine
end

