-- ==== Sys2Proof/Machine/HostPipeline.lean ====
section
/-! DEFINITION. The host that runs D0's pipeline around HAM74 (44_host_pipeline.md). It drives the machine through `step`
alone, one issue a step, and reads its result outputs and status outputs. -/

namespace Sys2Proof.Machine

/-- Why the host's run is over; it then returns nothing (44_host_pipeline.md rules R137, R139; 70_reset_and_hazards.md
rule R180). -/
inductive HostError where
  /-- An operand the assembler rejects (30_encoding.md rule R63). -/
  | operandOutOfRange
  /-- HAM74 answered `ERR = 1` (44_host_pipeline.md rule R139). -/
  | deviceError
  /-- The step presented no outputs, or there was no step. -/
  | noResult
  /-- The host's generator has too few draws for the stream (44_host_pipeline.md rule R133). -/
  | tooFewDraws
  /-- The noisy stream's length is not a multiple of 14 (44_host_pipeline.md rule R137). -/
  | domainError
  deriving DecidableEq, Repr

/-- A run that is over: why, and the state the host leaves HAM74 in. The results so far are discarded
(70_reset_and_hazards.md rule R180). -/
structure Failure where
  error : HostError
  state : State
  deriving DecidableEq, Repr

/-- Issue operations one after another and collect each step's outputs, stopping at the first `ERR`
(70_reset_and_hazards.md rule R180). -/
def runOps : List AsmOp → State → Except Failure (List Outputs × State)
  | [], s => .ok ([], s)
  | op :: ops, s =>
    match assemble s.params op with
    | none => .error ⟨.operandOutOfRange, s⟩
    | some i =>
      match step (issueNext s i) with
      | .next t =>
        match t.ham.out with
        | none => .error ⟨.noResult, t⟩
        | some o =>
          if o.err then .error ⟨.deviceError, t⟩
          else
            match runOps ops t with
            | .ok (os, u) => .ok (o :: os, u)
            | .error e => .error e
      | .fault _ => .error ⟨.noResult, s⟩
      | .refused _ => .error ⟨.noResult, s⟩

/-- The bit an INJ returned, `RES[0]` (43_channel.md rule R114). -/
def resultBit (o : Outputs) : Bool := o.res.getLsbD 0

/-- The Symbol a decode returned, `RES[3:0]` (44_host_pipeline.md rule R135). -/
def resultSymbol (o : Outputs) : Symbol := o.res.extractLsb' 0 4

/-- One pass of the channel: CHBEGIN, then one INJ a bit, each with its draw (43_channel.md rule R110). -/
def passOps (rate : Nat) (bits : List Bool) (draws : List Nat) : List AsmOp :=
  .chbegin rate :: List.zipWith (fun b u => .inj b.toNat u) bits draws

/-- Step 1: the Symbols of a byte, high nibble first (44_host_pipeline.md rule R131). -/
def splitByte (v : BitVec 8) : List Nat := [v.toNat / 16, v.toNat % 16]

/-- Steps 1 and 2: the ENC operations of a payload (44_host_pipeline.md rules R131, R132). -/
def encOps (payload : List (BitVec 8)) : List AsmOp := payload.flatMap fun v => encByte v.toNat

/-- The clean stream: the codewords in order, each c1 first (44_host_pipeline.md rule R132; 20_memory.md rule R43). -/
def streamOf (outs : List Outputs) : List Bool := outs.flatMap fun o => bitsOfVec o.res

/-- Step 4: the received words of a noisy stream, first bit on the most significant side (44_host_pipeline.md
rule R134). -/
def wordsOf (noisy : List Bool) : List Codeword := (blocksOf7 noisy).map (vecOfBits 7)

/-- Step 4: two Symbols a byte, `(high << 4) | low` (44_host_pipeline.md rule R135). -/
def reassemble : List Outputs → List (BitVec 8)
  | hi :: lo :: rest => decByteResult hi lo :: reassemble rest
  | _ => []

/-- ChannelStatistics, read from the status outputs (43_channel.md rule R113). -/
structure Stats where
  totalBits : Nat
  totalFlips : Nat
  uncorrBlocks : Nat
  deriving DecidableEq, Repr

/-- The three counters on the status outputs (10_state.md rule R34). -/
def statsOf (s : State) : Stats := ⟨s.ham.totalBits.toNat, s.ham.totalFlips.toNat, s.ham.uncorrBlocks.toNat⟩

/-- What `runPipeline` returns (44_host_pipeline.md rule R136). -/
structure PipelineResult where
  corrected : List (BitVec 8)
  uncorrected : List (BitVec 8)
  stats : Stats
  deriving DecidableEq, Repr

/-- Step 4, decode twice: the same noisy words through DECC and through DECN, after the length check the host makes
(44_host_pipeline.md rules R134, R135, R137; DECC first, log 13). -/
def decodeStage (noisy : List Bool) (s : State) : Except Failure (List (BitVec 8) × List (BitVec 8) × State) :=
  if noisy.length % 14 ≠ 0 then .error ⟨.domainError, s⟩
  else
    match runOps ((wordsOf noisy).map fun w => .decc w.toNat) s with
    | .error e => .error e
    | .ok (corrected, s1) =>
      match runOps ((wordsOf noisy).map fun w => .decn w.toNat) s1 with
      | .error e => .error e
      | .ok (uncorrected, s2) => .ok (reassemble corrected, reassemble uncorrected, s2)

/-- `runPipeline(payload, errorRate)`, the rate as its threshold T and the generator as the list of its draws
(44_host_pipeline.md rule R130). Also the state the host leaves HAM74 in. -/
def runPipeline (payload : List (BitVec 8)) (rate : Nat) (draws : List Nat) (s : State) :
    Except Failure (PipelineResult × State) :=
  match runOps (encOps payload) s with
  | .error e => .error e
  | .ok (encoded, s1) =>
    if draws.length < (streamOf encoded).length then .error ⟨.tooFewDraws, s1⟩
    else
      match runOps (passOps rate (streamOf encoded) draws) s1 with
      | .error e => .error e
      | .ok (injected, s2) =>
        match decodeStage (injected.tail.map resultBit) s2 with
        | .error e => .error e
        | .ok (corrected, uncorrected, s3) => .ok (⟨corrected, uncorrected, statsOf s2⟩, s3)

/-- The host resets HAM74: it asserts `RST` for one step (60_exceptions.md rule R156; 70_reset_and_hazards.md rule R170). What
it puts on the other ports makes no difference (log 18). -/
def hostReset (s : State) : State :=
  match step (issueNext s ⟨true, 0, s.ham.rateIn, s.ham.rndIn⟩) with
  | .next t => t
  | .fault _ => s
  | .refused _ => s

/-- What the host does to HAM74 after a run that failed: after an `ERR` it resets it, before any next run
(44_host_pipeline.md rule R139; 70_reset_and_hazards.md rule R180). The other errors are the host's own, and HAM74 has not
faulted (log 18). -/
def recover (f : Failure) : State :=
  match f.error with
  | .deviceError => hostReset f.state
  | .operandOutOfRange => f.state
  | .noResult => f.state
  | .tooFewDraws => f.state
  | .domainError => f.state

/-- One call of `runPipeline`: its payload, the threshold of its rate, and the draws of its generator. -/
structure PipelineCall where
  payload : List (BitVec 8)
  rate : Nat
  draws : List Nat
  deriving DecidableEq, Repr

/-- One call as the host makes it: the result, or nothing but the error, and HAM74 ready for the next run
(44_host_pipeline.md rule R139). -/
def callPipeline (c : PipelineCall) (s : State) : Except HostError PipelineResult × State :=
  match runPipeline c.payload c.rate c.draws s with
  | .ok (r, t) => (.ok r, t)
  | .error f => (.error f.error, recover f)

/-- The host's calls, one after another on the same HAM74. -/
def callPipelines : List PipelineCall → State → List (Except HostError PipelineResult) × State
  | [], s => ([], s)
  | c :: cs, s =>
    let (r, t) := callPipeline c s
    let (rs, u) := callPipelines cs t
    (r :: rs, u)

/-- The most payload bytes one run can carry: `floor((2^CNTW - 1) / 14)` (70_reset_and_hazards.md rule R179). -/
def maxPayloadBytes (p : Params) : Nat := (2 ^ p.cntw - 1) / 14

end Sys2Proof.Machine
end

