-- ==== Sys2Proof/Safety.lean ====
section
/-! DEFINITION. What counts as a sound state and a safe host, in the terms the statements use: the invariants of
10_state.md rule R30, the host of 60_exceptions.md rule R158, and what the codec and the fault mechanism may touch. -/

namespace Sys2Proof.Machine

/-- The invariants 1 to 6 of 10_state.md rule R30 that speak of the state alone. -/
abbrev Ham74.Invariants {p : Params} (h : Ham74 p) : Prop :=
  h.pos.toNat = h.totalBits.toNat % 7
    ∧ h.blkf.toNat ≤ h.pos.toNat
    ∧ h.pos.toNat ≤ 6
    ∧ h.totalFlips.toNat ≤ h.totalBits.toNat
    ∧ 2 * h.uncorrBlocks.toNat ≤ h.totalFlips.toNat
    ∧ h.rate.toNat ≤ 2 ^ p.w
    ∧ (h.fault = false ↔ h.fcode = 0#3)

/-- What invariant 7 of 10_state.md rule R30 leaves on the state alone: the flips of the completed blocks are those not in
the current block, each completed uncorrectable block has at least two of them, and a current block with two flips has been
counted. Invariant 4 follows from it. -/
abbrev Ham74.BlockAccount {p : Params} (h : Ham74 p) : Prop :=
  (h.blkf.toNat < 2 → 2 * h.uncorrBlocks.toNat + h.blkf.toNat ≤ h.totalFlips.toNat)
    ∧ (2 ≤ h.blkf.toNat → 1 ≤ h.uncorrBlocks.toNat
        ∧ 2 * h.uncorrBlocks.toNat + h.blkf.toNat ≤ h.totalFlips.toNat + 2)
    ∧ h.fcode.toNat ≤ 4

/-- A sound state: rule R30, with what makes it inductive. -/
abbrev State.Sound (s : State) : Prop := s.ham.Invariants ∧ s.ham.BlockAccount

/-- A state from which the machine runs: legal parameters, a first reset behind it (00_scope.md rule R6; U26). -/
abbrev State.Ready (s : State) : Prop := s.params.legal = true ∧ s.ham.resetSeen = true

/-- A command of the host of 60_exceptions.md rule R158: it passes every check that the command and the side port decide. -/
def safeIssue {p : Params} (i : Issue p.w) : Bool :=
  (decode i.cmd).wellFormed
    && (match decode i.cmd with
        | .chbegin _ => decide (i.rateIn.toNat ≤ 2 ^ p.w)
        | _ => true)

/-- Two machines that differ at most in the outputs they present: what an operation that writes no state leaves equal
(20_memory.md rule R47). -/
abbrev sameButOutputs {p : Params} (g h : Ham74 p) : Prop := g = { h with out := g.out }

/-- Two machines that differ at most in `FAULT`, `FCODE` and the outputs: what a fault leaves equal (60_exceptions.md
rule R154). -/
abbrev sameButFault {p : Params} (g h : Ham74 p) : Prop :=
  g = { h with fault := g.fault, fcode := g.fcode, out := g.out }

/-- The number of bits set in a word: how many positions a flip pattern hits. -/
def weight {n : Nat} (v : BitVec n) : Nat := ((bitsOfVec v).filter id).length

end Sys2Proof.Machine
end

