-- ==== Sys2Proof/Certificates/Slice0/Obligations.lean ====
section
/-! DEFINITION. The statements about HAM74 for the provers, each from the numbered rules of spec/. -/

open Sys2Proof Sys2Proof.Machine

/-! Command words (30_encoding.md section 3). -/

/-- Words written out from the patterns of 30_encoding.md rule R57 decode to the instructions they stand for. -/
def Obligations.CommandWordsDecodeAsWritten : Prop :=
  decode 0b0000001011#10 = .enc 0b0001011#7
    ∧ decode 0b0100100011#10 = .decn 0b0100011#7
    ∧ decode 0b0110100011#10 = .decc 0b0100011#7
    ∧ decode 0b1000000000#10 = .chbegin 0#7
    ∧ decode 0b1010000001#10 = .inj 1#7
    ∧ decode 0b0010000000#10 = .reservedOp1 0#7
    ∧ decode 0b1100000000#10 = .reservedOp6 0#7
    ∧ decode 0b1111111111#10 = .reservedOp7 0b1111111#7

/-- 30_encoding.md rules R55 and R56: OP alone selects the row, and ARG is the word's low seven bits. -/
def Obligations.OpAloneSelectsTheRow : Prop :=
  ∀ arg : BitVec 7,
    decode (0b000#3 ++ arg) = .enc arg
      ∧ decode (0b001#3 ++ arg) = .reservedOp1 arg
      ∧ decode (0b010#3 ++ arg) = .decn arg
      ∧ decode (0b011#3 ++ arg) = .decc arg
      ∧ decode (0b100#3 ++ arg) = .chbegin arg
      ∧ decode (0b101#3 ++ arg) = .inj arg
      ∧ decode (0b110#3 ++ arg) = .reservedOp6 arg
      ∧ decode (0b111#3 ++ arg) = .reservedOp7 arg

/-- Decode and encode agree, both ways, for every instruction and every command word, and a number that is no command word
decodes to nothing (30_encoding.md rules R55, R56, R62; the rejection by name is the model's, log 10). -/
def Obligations.DecodeAndEncodeAgree : Prop :=
  (∀ i : Instr, decodeWord (encode i).toNat = .ok i)
    ∧ (∀ (w : Nat) (i : Instr), decodeWord w = .ok i → w < 1024 ∧ (encode i).toNat = w)
    ∧ (∀ w : Nat, 1024 ≤ w → decodeWord w = .error .widerThanCommandWord)

/-- 30_encoding.md rule R61: how many of the 1024 command words fall in each class, read off what each does from reset
(`RATE_IN` stands at 0 there, the model's choice of log 7, so CHBEGIN's rate is legal). -/
def Obligations.CommandWordClassesAreCounted : Prop :=
  let count : Nat → Nat → Nat := fun op code =>
    ((List.range 1024).filter fun n =>
      decide (n / 128 = op)
        && (match exec (decode (BitVec.ofNat 10 n)) State.reset with
            | .next t => decide (t.ham.fcode.toNat = code)
            | _ => false)).length
  count 0 0 = 16 ∧ count 0 1 = 112
    ∧ count 2 0 = 128 ∧ count 3 0 = 128
    ∧ count 4 0 = 1 ∧ count 4 3 = 127
    ∧ count 5 0 = 2 ∧ count 5 1 = 126
    ∧ count 1 3 + count 6 3 + count 7 3 = 384

/-! The encoder (41_encoder.md). -/

/-- 41_encoder.md rule R80: ENC, clause by clause of its pseudocode. -/
def Obligations.EncReturnsTheCodeword : Prop :=
  ∀ (p : Params) (h : Ham74 p) (arg : BitVec 7),
    decode (0b000#3 ++ arg) = .enc arg
      ∧ (h.fault = true → exec (.enc arg) ⟨p, h⟩ = .next ⟨p, { h with out := some ⟨0, false, true, h.fcode⟩ }⟩)
      ∧ (h.fault = false → 16 ≤ arg.toNat →
          exec (.enc arg) ⟨p, h⟩
            = .next ⟨p, { h with fault := true, fcode := 1, out := some ⟨0, false, true, 1⟩ }⟩)
      ∧ (h.fault = false → arg.toNat < 16 →
          let d1 := arg.getLsbD 3
          let d2 := arg.getLsbD 2
          let d3 := arg.getLsbD 1
          let d4 := arg.getLsbD 0
          let codeword : BitVec 7 :=
            BitVec.ofBool (d1 ^^ d2 ^^ d4) ++ BitVec.ofBool (d1 ^^ d3 ^^ d4) ++ BitVec.ofBool d1
              ++ BitVec.ofBool (d2 ^^ d3 ^^ d4) ++ BitVec.ofBool d2 ++ BitVec.ofBool d3 ++ BitVec.ofBool d4
          exec (.enc arg) ⟨p, h⟩ = .next ⟨p, { h with out := some ⟨codeword, false, false, 0⟩ }⟩)

/-- 41_encoder.md rule R83: the whole graph of ENC. -/
def Obligations.EncoderGraphIsTheTable : Prop :=
  (List.range 16).map (fun n => (encodeSymbol (BitVec.ofNat 4 n)).toNat)
    = [0x00, 0x69, 0x2A, 0x43, 0x4C, 0x25, 0x66, 0x0F, 0x70, 0x19, 0x5A, 0x33, 0x3C, 0x55, 0x16, 0x7F]

/-- 41_encoder.md rule R82: each syndrome bit is one parity bit exclusive-or-ed with the data bits that parity bit covers,
so every Codeword has Syndrome 0. -/
def Obligations.SyndromeChecksTheParityEquations : Prop :=
  (∀ c : Codeword,
    syndrome1 c = (bitAt c 1 ^^ parity1 (extractData c))
      ∧ syndrome2 c = (bitAt c 2 ^^ parity2 (extractData c))
      ∧ syndrome3 c = (bitAt c 4 ^^ parity3 (extractData c)))
    ∧ ∀ s : Symbol, syndromeOf (encodeSymbol s) = 0#3

/-- 41_encoder.md rule R84: the four laws of ENC, with the Codewords of each weight. -/
def Obligations.EncoderLaws : Prop :=
  (∀ a b : Symbol, encodeSymbol (a ^^^ b) = encodeSymbol a ^^^ encodeSymbol b)
    ∧ encodeSymbol 0 = 0
    ∧ (∀ a b : Symbol, encodeSymbol a = encodeSymbol b → a = b)
    ∧ (∀ w : Codeword, syndromeOf w = 0#3 ↔ ∃ s : Symbol, encodeSymbol s = w)
    ∧ (∀ a b : Symbol, a ≠ b → 3 ≤ weight (encodeSymbol a ^^^ encodeSymbol b))
    ∧ (∀ s : Symbol, extractData (encodeSymbol s) = s)
    ∧ [0, 3, 4, 7].map (fun k => ((List.range 16).map fun n => encodeSymbol (BitVec.ofNat 4 n)).filter fun c => weight c = k)
        = [[0x00], [0x2A, 0x43, 0x4C, 0x25, 0x70, 0x19, 0x16], [0x69, 0x66, 0x0F, 0x5A, 0x33, 0x3C, 0x55], [0x7F]]

/-- 41_encoder.md rule R85 and 42_decoder.md rule R101: encoder and syndrome as matrices over bits. -/
def Obligations.CodecIsItsMatrices : Prop :=
  (∀ s : Symbol, encodeSymbol s = encodeByMatrix s)
    ∧ generatorRows = [encodeSymbol 8, encodeSymbol 4, encodeSymbol 2, encodeSymbol 1]
    ∧ ∀ c : Codeword,
        [syndrome1 c, syndrome2 c, syndrome3 c] = parityCheckRows.map fun row => decide (weight (row &&& c) % 2 = 1)

/-! The decoder (42_decoder.md). -/

/-- 42_decoder.md rules R91 and R92: the syndrome bits and the Syndrome's value. -/
def Obligations.SyndromeValue : Prop :=
  ∀ c : BitVec 7,
    let s1 := c.getLsbD 6 ^^ c.getLsbD 4 ^^ c.getLsbD 2 ^^ c.getLsbD 0
    let s2 := c.getLsbD 5 ^^ c.getLsbD 4 ^^ c.getLsbD 1 ^^ c.getLsbD 0
    let s3 := c.getLsbD 3 ^^ c.getLsbD 2 ^^ c.getLsbD 1 ^^ c.getLsbD 0
    (syndromeOf c).toNat = 4 * s3.toNat + 2 * s2.toNat + s1.toNat
      ∧ (syndromeOf c).toNat = bitsToInt [s3, s2, s1]

/-- 42_decoder.md rule R93: the mapper is the identity on 1..7, its table is `0x80 >> syn`, one-hot at position syn. -/
def Obligations.MapperFlipsThePositionNamed : Prop :=
  flipMask 0 = 0
    ∧ ∀ syn : BitVec 3, syn ≠ 0#3 →
        (flipMask syn).toNat = 0x80 >>> syn.toNat
          ∧ ∀ k ∈ List.range' 1 7, bitAt (flipMask syn) k = decide (k = syn.toNat)

/-- 42_decoder.md rule R96: DECN, clause by clause of its pseudocode; it never faults. -/
def Obligations.DecnReturnsTheDataBits : Prop :=
  ∀ (p : Params) (h : Ham74 p) (arg : BitVec 7),
    decode (0b010#3 ++ arg) = .decn arg
      ∧ (h.fault = true → exec (.decn arg) ⟨p, h⟩ = .next ⟨p, { h with out := some ⟨0, false, true, h.fcode⟩ }⟩)
      ∧ (h.fault = false →
          let res : BitVec 7 :=
            0#3 ++ BitVec.ofBool (arg.getLsbD 4) ++ BitVec.ofBool (arg.getLsbD 2) ++ BitVec.ofBool (arg.getLsbD 1)
              ++ BitVec.ofBool (arg.getLsbD 0)
          exec (.decn arg) ⟨p, h⟩ = .next ⟨p, { h with out := some ⟨res, false, false, 0⟩ }⟩)

/-- 42_decoder.md rule R97: DECC, clause by clause of its pseudocode; it never faults. -/
def Obligations.DeccCorrectsAndReturnsTheDataBits : Prop :=
  ∀ (p : Params) (h : Ham74 p) (arg : BitVec 7),
    decode (0b011#3 ++ arg) = .decc arg
      ∧ (h.fault = true → exec (.decc arg) ⟨p, h⟩ = .next ⟨p, { h with out := some ⟨0, false, true, h.fcode⟩ }⟩)
      ∧ (h.fault = false →
          let c1 := arg.getLsbD 6
          let c2 := arg.getLsbD 5
          let c3 := arg.getLsbD 4
          let c4 := arg.getLsbD 3
          let c5 := arg.getLsbD 2
          let c6 := arg.getLsbD 1
          let c7 := arg.getLsbD 0
          let syn := 4 * (c4 ^^ c5 ^^ c6 ^^ c7).toNat + 2 * (c2 ^^ c3 ^^ c6 ^^ c7).toNat
            + (c1 ^^ c3 ^^ c5 ^^ c7).toNat
          let c' : BitVec 7 := if syn ≠ 0 then arg ^^^ BitVec.ofNat 7 (0x80 >>> syn) else arg
          let res : BitVec 7 :=
            0#3 ++ BitVec.ofBool (c'.getLsbD 4) ++ BitVec.ofBool (c'.getLsbD 2) ++ BitVec.ofBool (c'.getLsbD 1)
              ++ BitVec.ofBool (c'.getLsbD 0)
          exec (.decc arg) ⟨p, h⟩ = .next ⟨p, { h with out := some ⟨res, decide (syn ≠ 0), false, 0⟩ }⟩)

/-- 42_decoder.md rule R98: `WASC = 1` if and only if the operation is DECC and the Syndrome is not zero, for every
operation that is not refused. -/
def Obligations.WascExactlyForDeccWithSyndrome : Prop :=
  ∀ (p : Params) (h : Ham74 p) (i : Instr), h.fault = false →
    ∃ (g : Ham74 p) (o : Outputs), exec i ⟨p, h⟩ = .next ⟨p, g⟩ ∧ g.out = some o
      ∧ (o.wasc = true ↔ ∃ c : Codeword, i = .decc c ∧ syndromeOf c ≠ 0#3)

/-- 42_decoder.md rule R100 item 1: any single flip at position `i` of a Codeword is corrected, with `WASC = 1` and
Syndrome `i`. -/
def Obligations.SingleFlipIsCorrected : Prop :=
  ∀ (p : Params) (h : Ham74 p) (s : Symbol) (i : Nat), h.fault = false → 1 ≤ i → i ≤ 7 →
    let received := encodeSymbol s ^^^ BitVec.ofNat 7 (0x80 >>> i)
    (syndromeOf received).toNat = i
      ∧ exec (.decc received) ⟨p, h⟩ = .next ⟨p, { h with out := some ⟨s.zeroExtend 7, true, false, 0⟩ }⟩

/-- 42_decoder.md rule R100 items 2 to 4: a Codeword decodes to its Symbol both ways, with `WASC = 0`; DECN of any word has
`WASC = 0`. -/
def Obligations.CleanCodewordsRoundTrip : Prop :=
  ∀ (p : Params) (h : Ham74 p), h.fault = false →
    (∀ s : Symbol,
      exec (.decc (encodeSymbol s)) ⟨p, h⟩ = .next ⟨p, { h with out := some ⟨s.zeroExtend 7, false, false, 0⟩ }⟩
        ∧ exec (.decn (encodeSymbol s)) ⟨p, h⟩
            = .next ⟨p, { h with out := some ⟨s.zeroExtend 7, false, false, 0⟩ }⟩)
      ∧ ∀ c : Codeword, ∃ r : Symbol,
          exec (.decn c) ⟨p, h⟩ = .next ⟨p, { h with out := some ⟨r.zeroExtend 7, false, false, 0⟩ }⟩

/-- 42_decoder.md rule R100 item 5: the Syndrome is linear, and a single set position is its own Syndrome. -/
def Obligations.SyndromeIsLinear : Prop :=
  (∀ a b : Codeword, syndromeOf (a ^^^ b) = syndromeOf a ^^^ syndromeOf b)
    ∧ ∀ k ∈ List.range' 1 7, (syndromeOf (BitVec.ofNat 7 (0x80 >>> k))).toNat = k

/-- 42_decoder.md rule R100 item 6: two flips at `i ≠ j` give Syndrome `i ^ j`, DECC answers a wrong Symbol with `WASC = 1`,
and DECN answers a wrong one exactly when `i` or `j` is a data position. -/
def Obligations.DoubleFlipsAreMiscorrected : Prop :=
  ∀ (p : Params) (h : Ham74 p) (s : Symbol) (i j : Nat),
    h.fault = false → 1 ≤ i → i ≤ 7 → 1 ≤ j → j ≤ 7 → i ≠ j →
    let received := encodeSymbol s ^^^ BitVec.ofNat 7 (0x80 >>> i) ^^^ BitVec.ofNat 7 (0x80 >>> j)
    (syndromeOf received).toNat = i ^^^ j ∧ i ^^^ j ≠ 0 ∧ i ^^^ j ≠ i ∧ i ^^^ j ≠ j
      ∧ (∃ r : Symbol, r ≠ s
          ∧ exec (.decc received) ⟨p, h⟩ = .next ⟨p, { h with out := some ⟨r.zeroExtend 7, true, false, 0⟩ }⟩)
      ∧ ∃ r : Symbol, (r ≠ s ↔ i ∈ [3, 5, 6, 7] ∨ j ∈ [3, 5, 6, 7])
          ∧ exec (.decn received) ⟨p, h⟩ = .next ⟨p, { h with out := some ⟨r.zeroExtend 7, false, false, 0⟩ }⟩

/-- 42_decoder.md rule R100 item 7: three flips whose positions cancel go unnoticed, any other three are miscorrected; the
Symbol is wrong either way. -/
def Obligations.TripleFlipsAreNeverCorrected : Prop :=
  ∀ (p : Params) (h : Ham74 p) (s : Symbol) (i j k : Nat),
    h.fault = false → 1 ≤ i → i < j → j < k → k ≤ 7 →
    let received := encodeSymbol s ^^^ BitVec.ofNat 7 (0x80 >>> i) ^^^ BitVec.ofNat 7 (0x80 >>> j)
      ^^^ BitVec.ofNat 7 (0x80 >>> k)
    ∃ r : Symbol, r ≠ s
      ∧ exec (.decc received) ⟨p, h⟩
          = .next ⟨p, { h with out := some ⟨r.zeroExtend 7, decide (i ^^^ j ^^^ k ≠ 0), false, 0⟩ }⟩

/-- 42_decoder.md rule R100 item 8: exactly one Codeword lies within one flip of any received word, and DECC answers its
Symbol. -/
def Obligations.DeccAnswersTheNearestCodeword : Prop :=
  ∀ (p : Params) (h : Ham74 p) (w : Codeword), h.fault = false →
    ∃ s : Symbol, weight (w ^^^ encodeSymbol s) ≤ 1
      ∧ (∀ r : Symbol, weight (w ^^^ encodeSymbol r) ≤ 1 → r = s)
      ∧ exec (.decc w) ⟨p, h⟩
          = .next ⟨p, { h with out := some ⟨s.zeroExtend 7, decide (w ≠ encodeSymbol s), false, 0⟩ }⟩

/-- 42_decoder.md rules R99 and R100 item 9: DECC and DECN answer the same Symbol exactly when the Syndrome is 0, 1, 2 or 4,
and where they differ, the bit in which they differ names the data position flipped. -/
def Obligations.DecodersAgreeOnParitySyndromes : Prop :=
  ∀ w : Codeword,
    ((decodeReceived true w).1 = (decodeReceived false w).1 ↔ (syndromeOf w).toNat ∈ [0, 1, 2, 4])
      ∧ ((decodeReceived true w).1 ≠ (decodeReceived false w).1 →
          (decodeReceived true w).1 ^^^ (decodeReceived false w).1 = extractData (flipMask (syndromeOf w))
            ∧ weight (extractData (flipMask (syndromeOf w))) = 1)

/-- 43_channel.md rule R124 and 44_host_pipeline.md rule R141, for one Codeword: DECC recovers the Symbol exactly under at
most one flip, DECN exactly when no flip hits a data position. -/
def Obligations.RecoveryDependsOnTheFlipPattern : Prop :=
  ∀ (s : Symbol) (e : Codeword),
    ((decodeReceived true (encodeSymbol s ^^^ e)).1 = s ↔ weight e ≤ 1)
      ∧ ((decodeReceived false (encodeSymbol s ^^^ e)).1 = s ↔ extractData e = 0#4)

/-! The injector (43_channel.md). -/

/-- 43_channel.md rules R111 and R112: CHBEGIN, clause by clause of its pseudocode. -/
def Obligations.ChbeginStartsAPass : Prop :=
  ∀ (p : Params) (h : Ham74 p) (arg : BitVec 7),
    decode (0b100#3 ++ arg) = .chbegin arg
      ∧ (h.fault = true → exec (.chbegin arg) ⟨p, h⟩ = .next ⟨p, { h with out := some ⟨0, false, true, h.fcode⟩ }⟩)
      ∧ (h.fault = false → arg ≠ 0#7 →
          exec (.chbegin arg) ⟨p, h⟩
            = .next ⟨p, { h with fault := true, fcode := 3, out := some ⟨0, false, true, 3⟩ }⟩)
      ∧ (h.fault = false → arg = 0#7 → 2 ^ p.w < h.rateIn.toNat →
          exec (.chbegin arg) ⟨p, h⟩
            = .next ⟨p, { h with fault := true, fcode := 2, out := some ⟨0, false, true, 2⟩ }⟩)
      ∧ (h.fault = false → arg = 0#7 → h.rateIn.toNat ≤ 2 ^ p.w →
          exec (.chbegin arg) ⟨p, h⟩
            = .next ⟨p, { h with
                rate := h.rateIn, totalBits := 0, totalFlips := 0, uncorrBlocks := 0, pos := 0, blkf := 0,
                out := some ⟨0, false, false, 0⟩ }⟩)

/-- 43_channel.md rules R114 and R115: INJ, clause by clause of its pseudocode. In states outside
State.Sound, which no run reaches, the sums of its last clause wrap at the register's width: the model's choice (log 17). -/
def Obligations.InjPassesOneBit : Prop :=
  ∀ (p : Params) (h : Ham74 p) (arg : BitVec 7),
    decode (0b101#3 ++ arg) = .inj arg
      ∧ (h.fault = true → exec (.inj arg) ⟨p, h⟩ = .next ⟨p, { h with out := some ⟨0, false, true, h.fcode⟩ }⟩)
      ∧ (h.fault = false → 2 ≤ arg.toNat →
          exec (.inj arg) ⟨p, h⟩
            = .next ⟨p, { h with fault := true, fcode := 1, out := some ⟨0, false, true, 1⟩ }⟩)
      ∧ (h.fault = false → arg.toNat < 2 → h.totalBits.toNat = 2 ^ p.cntw - 1 →
          exec (.inj arg) ⟨p, h⟩
            = .next ⟨p, { h with fault := true, fcode := 4, out := some ⟨0, false, true, 4⟩ }⟩)
      ∧ (h.fault = false → arg.toNat < 2 → h.totalBits.toNat ≠ 2 ^ p.cntw - 1 →
          let flip := decide (h.rndIn.toNat < h.rate.toNat)
          exec (.inj arg) ⟨p, h⟩
            = .next ⟨p, { h with
                totalBits := h.totalBits + 1,
                totalFlips := if flip then h.totalFlips + 1 else h.totalFlips,
                uncorrBlocks := if flip ∧ h.blkf = 1#3 then h.uncorrBlocks + 1 else h.uncorrBlocks,
                pos := if h.pos = 6#3 then 0 else h.pos + 1,
                blkf := if h.pos = 6#3 then 0 else if flip then h.blkf + 1 else h.blkf,
                out := some ⟨if arg.getLsbD 0 = flip then 0 else 1, false, false, 0⟩ }⟩)

/-- 43_channel.md rule R117: the flip decision, and how many of the 2^W draws flip. -/
def Obligations.RateCountsTheDrawsThatFlip : Prop :=
  ∀ (p : Params) (h : Ham74 p),
    (flips h = true ↔ h.rndIn.toNat < h.rate.toNat)
      ∧ (h.rate.toNat ≤ 2 ^ p.w →
          ((List.range (2 ^ p.w)).filter fun u => flips { h with rndIn := BitVec.ofNat p.w u }).length = h.rate.toNat)

/-- The endpoints of the rate (43_channel.md rule R114, corner cases): at 0 no draw flips the bit, at 2^W every draw does.
Outside State.Sound the sum on TOTAL_FLIPS wraps at the register's width: the model's choice (log 17). -/
def Obligations.RateEndpointsAreExact : Prop :=
  ∀ (p : Params) (h : Ham74 p) (arg : BitVec 7),
    h.fault = false → arg.toNat < 2 → h.totalBits.toNat ≠ 2 ^ p.cntw - 1 →
    ∃ g : Ham74 p, exec (.inj arg) ⟨p, h⟩ = .next ⟨p, g⟩
      ∧ (h.rate.toNat = 0 → g.out = some ⟨arg, false, false, 0⟩ ∧ g.totalFlips = h.totalFlips)
      ∧ (h.rate.toNat = 2 ^ p.w → g.out = some ⟨arg ^^^ 1#7, false, false, 0⟩ ∧ g.totalFlips = h.totalFlips + 1)

/-- 43_channel.md rule R118: what any step does to the two aggregate counters. Every unfaulted INJ advances them, CHBEGIN and
reset zero them, and no other step changes them. Outside State.Sound the sum on TOTAL_FLIPS wraps at the register's width:
the model's choice (log 17). -/
def Obligations.OnlyInjChbeginAndResetChangeTheCounts : Prop :=
  ∀ s t : State, step s = .next t →
    ∃ g : Ham74 s.params, t = ⟨s.params, g⟩
      ∧ (let unchanged := g.totalBits = s.ham.totalBits ∧ g.totalFlips = s.ham.totalFlips
         let zeroed := g.totalBits = 0 ∧ g.totalFlips = 0
         match s.ham.pending with
         | [] => unchanged
         | i :: _ =>
            if i.rst then zeroed
            else if g.fault then unchanged
            else if i.cmd.extractLsb' 7 3 = 0b100#3 then zeroed
            else if i.cmd.extractLsb' 7 3 = 0b101#3 then
              g.totalBits.toNat = s.ham.totalBits.toNat + 1
                ∧ g.totalFlips = if i.rndIn.toNat < s.ham.rate.toNat then s.ham.totalFlips + 1 else s.ham.totalFlips
            else unchanged)

/-- The writers of each state element (10_state.md rule R22), over all instructions: what a meaning leaves alone. -/
def Obligations.WritersOfEachStateElement : Prop :=
  ∀ (p : Params) (h : Ham74 p) (i : Instr),
    ∃ g : Ham74 p, exec i ⟨p, h⟩ = .next ⟨p, g⟩
      ∧ (g.rate ≠ h.rate → ∃ arg, i = .chbegin arg)
      ∧ ((g.totalBits ≠ h.totalBits ∨ g.totalFlips ≠ h.totalFlips ∨ g.uncorrBlocks ≠ h.uncorrBlocks
            ∨ g.pos ≠ h.pos ∨ g.blkf ≠ h.blkf) → ∃ arg, i = .chbegin arg ∨ i = .inj arg)
      ∧ ((g.fault ≠ h.fault ∨ g.fcode ≠ h.fcode) → h.fault = false ∧ g.fault = true ∧ sameButFault g h)
      ∧ g.resetSeen = h.resetSeen ∧ g.rateIn = h.rateIn ∧ g.rndIn = h.rndIn ∧ g.pending = h.pending

/-- 20_memory.md rule R47 for ENC, DECN and DECC: they write no state when they do not fault, and a second issue of the same
operation answers what the first did. -/
def Obligations.CodecOperationsAreIdempotent : Prop :=
  ∀ (p : Params) (h : Ham74 p) (arg : BitVec 7) (i : Instr),
    i = .enc arg ∨ i = .decn arg ∨ i = .decc arg → i.wellFormed = true →
    ∃ g : Ham74 p, exec i ⟨p, h⟩ = .next ⟨p, g⟩ ∧ sameButOutputs g h ∧ exec i ⟨p, g⟩ = .next ⟨p, g⟩

/-- 20_memory.md rule R49: a codec operation that does not fault may be moved across any operation `j` that does not fault;
every result and the state are the same. -/
def Obligations.CodecOperationsCommute : Prop :=
  ∀ (p : Params) (h : Ham74 p) (arg : BitVec 7) (i j : Instr),
    i = .enc arg ∨ i = .decn arg ∨ i = .decc arg → i.wellFormed = true → h.fault = false →
    ∃ a b c d : Ham74 p,
      exec i ⟨p, h⟩ = .next ⟨p, a⟩ ∧ exec j ⟨p, a⟩ = .next ⟨p, b⟩
        ∧ exec j ⟨p, h⟩ = .next ⟨p, c⟩ ∧ exec i ⟨p, c⟩ = .next ⟨p, d⟩
        ∧ b.out = c.out ∧ sameButOutputs b d ∧ (c.fault = false → a.out = d.out)

/-- 10_state.md rule R32: only CHBEGIN samples `RATE_IN`, only INJ samples `RND_IN`; to every other operation their values
make no difference. -/
def Obligations.SidePortsAreSampledByOneOperation : Prop :=
  ∀ (p : Params) (h : Ham74 p) (i : Instr) (r : BitVec (p.w + 1)) (u : BitVec p.w),
    ∃ g : Ham74 p, exec i ⟨p, h⟩ = .next ⟨p, g⟩
      ∧ ((∀ arg, i ≠ .chbegin arg) → exec i ⟨p, { h with rateIn := r }⟩ = .next ⟨p, { g with rateIn := r }⟩)
      ∧ ((∀ arg, i ≠ .inj arg) → exec i ⟨p, { h with rndIn := u }⟩ = .next ⟨p, { g with rndIn := u }⟩)

/-! A whole pass (43_channel.md section 4). -/

/-- 43_channel.md rule R123: a pass of CHBEGIN and INJ operations from any unfaulted state returns the noisy bits and ends
with the counters of the reference loop. -/
def Obligations.PassEqualsTheReferenceLoop : Prop :=
  ∀ (s : State) (rate : Nat) (bits : List Bool) (draws : List Nat),
    s.Ready → s.ham.fault = false → rate ≤ 2 ^ s.params.w →
    draws.length = bits.length → bits.length ≤ 2 ^ s.params.cntw - 1 → (∀ u ∈ draws, u < 2 ^ s.params.w) →
    ∃ (begun : Outputs) (outs : List Outputs) (t : State),
      runOps (passOps rate bits draws) s = .ok (begun :: outs, t)
        ∧ outs.map resultBit = (corruptRef bits rate draws).noisy
        ∧ statsOf t = ⟨(corruptRef bits rate draws).total, (corruptRef bits rate draws).flips,
            (corruptRef bits rate draws).uncorr⟩

/-- 43_channel.md rule R121 items 1 to 6: the laws of a pass, on what the host reads. -/
def Obligations.LawsOfAPass : Prop :=
  ∀ (s : State) (rate : Nat) (bits : List Bool) (draws : List Nat),
    s.Ready → s.ham.fault = false → rate ≤ 2 ^ s.params.w →
    draws.length = bits.length → bits.length ≤ 2 ^ s.params.cntw - 1 → (∀ u ∈ draws, u < 2 ^ s.params.w) →
    ∃ (begun : Outputs) (outs : List Outputs) (t : State),
      runOps (passOps rate bits draws) s = .ok (begun :: outs, t)
        ∧ (let noisy := outs.map resultBit
           let flipped := draws.map fun u => decide (u < rate)
           let stats := statsOf t
           stats.totalFlips = ((noisy.zip bits).filter fun x => x.1 != x.2).length
            ∧ stats.totalBits = bits.length
            ∧ noisy = List.zipWith (fun b f => b ^^ f) bits flipped
            ∧ stats.uncorrBlocks = ((blocksOf7 flipped).filter fun block => 2 ≤ block.count true).length
            ∧ (rate = 0 → noisy = bits ∧ stats.totalFlips = 0 ∧ stats.uncorrBlocks = 0)
            ∧ (rate = 2 ^ s.params.w → noisy = bits.map (! ·) ∧ stats.totalFlips = bits.length
                ∧ stats.uncorrBlocks = bits.length / 7 + if 2 ≤ bits.length % 7 then 1 else 0)
            ∧ (bits = [] → noisy = [] ∧ stats = ⟨0, 0, 0⟩))

/-! Faults (60_exceptions.md). -/

/-- 30_encoding.md rule R59: a command word with a reserved OP raises RESERVED whatever ARG holds, from any unfaulted
state. -/
def Obligations.ReservedOpRaisesReserved : Prop :=
  ∀ (p : Params) (h : Ham74 p) (arg : BitVec 7), h.fault = false →
    let raised : State := ⟨p, { h with fault := true, fcode := 3, out := some ⟨0, false, true, 3⟩ }⟩
    exec (.reservedOp1 arg) ⟨p, h⟩ = .next raised
      ∧ exec (.reservedOp6 arg) ⟨p, h⟩ = .next raised
      ∧ exec (.reservedOp7 arg) ⟨p, h⟩ = .next raised
      ∧ decode (0b001#3 ++ arg) = .reservedOp1 arg
      ∧ decode (0b110#3 ++ arg) = .reservedOp6 arg
      ∧ decode (0b111#3 ++ arg) = .reservedOp7 arg

/-- 60_exceptions.md rule R154: an operation that raises writes `FAULT` and `FCODE` and nothing else, and its outputs are
forced. -/
def Obligations.RaisingWritesOnlyTheFault : Prop :=
  ∀ (p : Params) (h g : Ham74 p) (i : Instr),
    h.fault = false → exec i ⟨p, h⟩ = .next ⟨p, g⟩ → g.fault = true →
    ∃ code : BitVec 3, 1 ≤ code.toNat ∧ code.toNat ≤ 4
      ∧ g = { h with fault := true, fcode := code, out := some ⟨0, false, true, code⟩ }

/-- 60_exceptions.md rule R155: while `FAULT` is 1 every operation, legal, illegal or reserved, is refused. -/
def Obligations.EveryOperationIsRefusedWhileFaulted : Prop :=
  ∀ (p : Params) (h : Ham74 p) (i : Instr), h.fault = true →
    exec i ⟨p, h⟩ = .next ⟨p, { h with out := some ⟨0, false, true, h.fcode⟩ }⟩

/-- 60_exceptions.md rules R152 and R157: the first check that applies decides. A faulted machine refuses; else the cause
is recorded and nothing else is written; else the operation executes and does not fault. -/
def Obligations.CauseCodesInCheckOrder : Prop :=
  ∀ (p : Params) (h : Ham74 p) (i : Instr),
    let cause : BitVec 3 :=
      match i with
      | .enc arg => if 16 ≤ arg.toNat then 1 else 0
      | .decn _ => 0
      | .decc _ => 0
      | .chbegin arg => if arg.toNat ≠ 0 then 3 else if 2 ^ p.w < h.rateIn.toNat then 2 else 0
      | .inj arg => if 2 ≤ arg.toNat then 1 else if h.totalBits.toNat = 2 ^ p.cntw - 1 then 4 else 0
      | .reservedOp1 _ => 3
      | .reservedOp6 _ => 3
      | .reservedOp7 _ => 3
    if h.fault then exec i ⟨p, h⟩ = .next ⟨p, { h with out := some ⟨0, false, true, h.fcode⟩ }⟩
    else if cause ≠ 0 then
      exec i ⟨p, h⟩ = .next ⟨p, { h with fault := true, fcode := cause, out := some ⟨0, false, true, cause⟩ }⟩
    else ∃ (g : Ham74 p) (o : Outputs), exec i ⟨p, h⟩ = .next ⟨p, g⟩ ∧ g.out = some o
      ∧ g.fault = false ∧ g.fcode = h.fcode ∧ o.err = false ∧ o.ecode = 0

/-- The report outputs of every operation (10_state.md rule R33): `ERR` says whether the machine is now faulted, `ECODE` is
`FCODE` then and 0 else, and an error has no result. -/
def Obligations.ErrReportsTheFault : Prop :=
  ∀ (p : Params) (h : Ham74 p) (i : Instr),
    ∃ (g : Ham74 p) (o : Outputs), exec i ⟨p, h⟩ = .next ⟨p, g⟩ ∧ g.out = some o
      ∧ o.err = g.fault ∧ o.ecode = (if g.fault then g.fcode else 0)
      ∧ (o.err = true → o.res = 0 ∧ o.wasc = false)

/-- 60_exceptions.md rule R158: the host that issues only checked commands, and no INJ into a full pass, never sees a
fault. -/
def Obligations.CheckedHostNeverSeesAFault : Prop :=
  ∀ (s : State) (i : Issue s.params.w),
    s.Ready → s.ham.fault = false → i.rst = false → safeIssue i = true →
    ((∃ arg, decode i.cmd = .inj arg) → s.ham.totalBits.toNat ≠ 2 ^ s.params.cntw - 1) →
    ∃ (t : State) (o : Outputs), step (issueNext s i) = .next t ∧ t.ham.out = some o
      ∧ t.ham.fault = false ∧ o.err = false

/-- `FAULT` and `FCODE` are sticky (10_state.md rule R29; 60_exceptions.md rule R156): only a step with `RST` asserted clears
them. -/
def Obligations.OnlyResetClearsTheFault : Prop :=
  ∀ s t : State, s.ham.fault = true → step s = .next t →
    (∃ i rest, s.ham.pending = i :: rest ∧ i.rst = true) ∨ (t.ham.fault = true ∧ t.ham.fcode = s.ham.fcode)

/-! Reset, steps and invariants. -/

/-- 10_state.md rule R35: after reset every state element is zero, whatever the parameters; no draw flips then. -/
def Obligations.ResetIsAllZeros : Prop :=
  (∃ p : Params, State.reset = ⟨p, Ham74.reset p⟩)
    ∧ ∀ p : Params,
        (Ham74.reset p).rate = 0 ∧ (Ham74.reset p).totalBits = 0 ∧ (Ham74.reset p).totalFlips = 0
          ∧ (Ham74.reset p).uncorrBlocks = 0 ∧ (Ham74.reset p).pos = 0 ∧ (Ham74.reset p).blkf = 0
          ∧ (Ham74.reset p).fault = false ∧ (Ham74.reset p).fcode = 0 ∧ (Ham74.reset p).out = none
          ∧ ∀ u : BitVec p.w, flips { Ham74.reset p with rndIn := u } = false

/-- 70_reset_and_hazards.md rule R170: `RST` zeroes every state element and presents no outputs, whatever command comes with
it and whatever went before; no other step clears `FAULT`. That the host's issues to come stay as they were
(`g.pending = rest`) is the model's choice (logs 2 and 7). -/
def Obligations.ResetWinsOverAnyCommand : Prop :=
  (∀ (p : Params) (h : Ham74 p) (i : Issue p.w) (rest : List (Issue p.w)),
    p.legal = true → h.pending = i :: rest → i.rst = true →
    ∃ g : Ham74 p, step ⟨p, h⟩ = .next ⟨p, g⟩
      ∧ g.rate = 0 ∧ g.totalBits = 0 ∧ g.totalFlips = 0 ∧ g.uncorrBlocks = 0 ∧ g.pos = 0 ∧ g.blkf = 0
      ∧ g.fault = false ∧ g.fcode = 0 ∧ g.out = none ∧ g.pending = rest)
    ∧ ∀ s t : State, step s = .next t → s.ham.fault = true → t.ham.fault = false →
        ∃ i rest, s.ham.pending = i :: rest ∧ i.rst = true

/-- A step runs the decoded instruction: with the side ports as issued, and the issues that follow it remaining. -/
def Obligations.StepRunsTheDecodedInstruction : Prop :=
  ∀ (p : Params) (h : Ham74 p) (i : Issue p.w) (rest : List (Issue p.w)),
    p.legal = true → h.resetSeen = true → h.pending = i :: rest → i.rst = false →
    step ⟨p, h⟩ = exec (decode i.cmd) ⟨p, { h with rateIn := i.rateIn, rndIn := i.rndIn, pending := rest }⟩

/-- A command word placed as the next issue is what the next step runs, in the state as it stands (log 9). -/
def Obligations.PlacedWordRunsNext : Prop :=
  ∀ (s : State) (nbits w : Nat) (i : Instr), s.Ready → decodeTableWord nbits w = some i →
    step (s.withFetchWord nbits w) = exec i s

/-- With nothing issued, a step leaves every state element as it was and presents no outputs (the model's reading of
60_exceptions.md rule R160, log 3). -/
def Obligations.NothingIssuedNothingHappens : Prop :=
  ∀ s : State, s.params.legal = true → s.ham.pending = [] → step s = .next ⟨s.params, { s.ham with out := none }⟩

/-- When a step stops (the model's choices, logs 5 and 6): parameters that break 00_scope.md rule R6 are a fault, a command
before the first reset is refused, and nothing else stops: a step with nothing issued goes on (log 3) and leaves `resetSeen`
as it was, a step with `RST` leads to a ready state, and a step of a ready state leads to a ready state. -/
def Obligations.StepStopsOnlyOutsideTheSpec : Prop :=
  ∀ s : State,
    (s.params.legal = false → step s = .fault .illegalParams)
      ∧ (∀ i rest, s.params.legal = true → s.ham.resetSeen = false → s.ham.pending = i :: rest → i.rst = false →
          step s = .refused .beforeFirstReset)
      ∧ (s.params.legal = true → s.ham.pending = [] →
          ∃ t : State, step s = .next t ∧ t.ham.resetSeen = s.ham.resetSeen ∧ t.params = s.params)
      ∧ (∀ i rest, s.params.legal = true → s.ham.pending = i :: rest → i.rst = true →
          ∃ t : State, step s = .next t ∧ t.Ready ∧ t.params = s.params)
      ∧ (s.Ready → ∃ t : State, step s = .next t ∧ t.Ready ∧ t.params = s.params)

/-- 10_state.md rule R30: the invariants hold in the state after reset, for the suggested parameters and for any. -/
def Obligations.ResetIsSound : Prop := State.reset.Sound ∧ ∀ p : Params, State.Sound ⟨p, Ham74.reset p⟩

/-- 10_state.md rule R30: every step keeps the invariants. -/
def Obligations.StepKeepsSoundness : Prop := ∀ s t : State, s.Sound → step s = .next t → t.Sound

/-! The helper functions (40_bit_conversion.md). -/

/-- 40_bit_conversion.md rule R70: the big-endian value of a sequence. -/
def Obligations.BitsToIntIsBigEndian : Prop :=
  ∀ bits : List Bool,
    bitsToInt bits = ((List.range bits.length).map fun k => (bits.getD k false).toNat * 2 ^ (bits.length - 1 - k)).sum
      ∧ bitsToInt (false :: bits) = bitsToInt bits
      ∧ bitsToInt bits < 2 ^ bits.length
      ∧ bitsToInt [] = 0

/-- 40_bit_conversion.md rules R71 and R72: the bits of a value that fits, and the rejection of one that does not. -/
def Obligations.IntToBitsRejectsWhatDoesNotFit : Prop :=
  ∀ value width : Nat, 0 < width →
    (2 ^ width ≤ value → intToBits value width = .error .domainError)
      ∧ (value < 2 ^ width → ∃ bits : List Bool, intToBits value width = .ok bits ∧ bits.length = width
          ∧ ∀ k, 1 ≤ k → k ≤ width → (bits.getD (k - 1) false).toNat = value / 2 ^ (width - k) % 2)

/-- 40_bit_conversion.md rule R73: the two conversions are inverse to each other. -/
def Obligations.BitConversionsAreInverse : Prop :=
  (∀ n w : Nat, 0 < w → n < 2 ^ w → ∃ bits : List Bool, intToBits n w = .ok bits ∧ bitsToInt bits = n)
    ∧ ∀ bits : List Bool, bits ≠ [] → intToBits (bitsToInt bits) bits.length = .ok bits

/-- 40_bit_conversion.md rule R74: a vector's value is the value of the sequence it carries, and its bits are the elements of
`int_to_bits`. -/
def Obligations.VectorsCarrySequences : Prop :=
  (∀ bits : List Bool, (vecOfBits bits.length bits).toNat = bitsToInt bits
      ∧ bitsOfVec (vecOfBits bits.length bits) = bits)
    ∧ ∀ (n : Nat) (v : BitVec n), 0 < n →
        intToBits v.toNat n = .ok (bitsOfVec v)
          ∧ ∀ k, 1 ≤ k → k ≤ n → (bitsOfVec v).getD (k - 1) false = v.getLsbD (n - k)

/-! The host (30_encoding.md section 6; 44_host_pipeline.md). -/

/-- 30_encoding.md rule R63: the command word and the side port each line stands for, and the operands the assembler
rejects. The rejection of an `s` above 15 is the rule's, that of any other operand out of range is the model's choice
(log 14). The value on a port that no operation samples is the model's too and is not stated. -/
def Obligations.AssemblerMakesTheListedWords : Prop :=
  ∀ (p : Params) (a b : Nat),
    (a ≤ 15 → ∃ i, assemble p (.enc a) = some i ∧ i.rst = false ∧ i.cmd = 0b000#3 ++ BitVec.ofNat 7 a)
      ∧ (15 < a → assemble p (.enc a) = none)
      ∧ (a ≤ 127 → ∃ i, assemble p (.decn a) = some i ∧ i.rst = false ∧ i.cmd = 0b010#3 ++ BitVec.ofNat 7 a)
      ∧ (a ≤ 127 → ∃ i, assemble p (.decc a) = some i ∧ i.rst = false ∧ i.cmd = 0b011#3 ++ BitVec.ofNat 7 a)
      ∧ (127 < a → assemble p (.decn a) = none ∧ assemble p (.decc a) = none)
      ∧ (a ≤ 2 ^ p.w → ∃ i, assemble p (.chbegin a) = some i ∧ i.rst = false ∧ i.cmd = 0b1000000000#10
          ∧ i.rateIn.toNat = a)
      ∧ (2 ^ p.w < a → assemble p (.chbegin a) = none)
      ∧ (a ≤ 1 → b < 2 ^ p.w → ∃ i, assemble p (.inj a b) = some i ∧ i.rst = false
          ∧ i.cmd = 0b101000000#9 ++ BitVec.ofNat 1 a ∧ i.rndIn.toNat = b)
      ∧ (1 < a ∨ 2 ^ p.w ≤ b → assemble p (.inj a b) = none)

/-- 30_encoding.md rule R64: ENCBYTE answers the 14 stream bits of the byte, and DECBYTEC and DECBYTEN rebuild the byte from
the two codewords. -/
def Obligations.ByteMacrosRoundTrip : Prop :=
  ∀ (s : State) (v : BitVec 8), s.Ready → s.ham.fault = false →
    ∃ (hi lo chi clo nhi nlo : Outputs) (t u x : State),
      runOps (encByte v.toNat) s = .ok ([hi, lo], t)
        ∧ encByteStream hi lo
            = bitsOfVec (encodeSymbol (v.extractLsb' 4 4)) ++ bitsOfVec (encodeSymbol (v.extractLsb' 0 4))
        ∧ runOps (decByteC hi.res.toNat lo.res.toNat) t = .ok ([chi, clo], u) ∧ decByteResult chi clo = v
        ∧ runOps (decByteN hi.res.toNat lo.res.toNat) u = .ok ([nhi, nlo], x) ∧ decByteResult nhi nlo = v

/-- 44_host_pipeline.md rule R137: a noisy stream whose length is not a multiple of 14 fails with DomainError, before
anything is decoded: no command is issued, so HAM74 is left as it was. -/
def Obligations.StreamLengthIsChecked : Prop :=
  ∀ (noisy : List Bool) (s : State), noisy.length % 14 ≠ 0 → decodeStage noisy s = .error ⟨.domainError, s⟩

/-- 44_host_pipeline.md rules R130, R136 and R138: a run that keeps to rule R139 never faults, uses one draw a stream bit, and
returns two payloads of the same length with TOTAL_BITS = 14 L. -/
def Obligations.PipelineRunsToItsEnd : Prop :=
  ∀ (s : State) (payload : List (BitVec 8)) (rate : Nat) (draws : List Nat),
    s.Ready → s.ham.fault = false → rate ≤ 2 ^ s.params.w → payload.length ≤ maxPayloadBytes s.params →
    14 * payload.length ≤ draws.length → (∀ u ∈ draws, u < 2 ^ s.params.w) →
    ∃ (r : PipelineResult) (t : State), runPipeline payload rate draws s = .ok (r, t)
      ∧ runPipeline payload rate (draws.take (14 * payload.length)) s = .ok (r, t)
      ∧ r.corrected.length = payload.length ∧ r.uncorrected.length = payload.length
      ∧ r.stats.totalBits = 14 * payload.length ∧ t.ham.fault = false ∧ t.params = s.params

/-- 44_host_pipeline.md rule R140: with rate 0, both payloads are the payload sent and the statistics are (14 L, 0, 0). -/
def Obligations.PipelineRoundTripWithoutNoise : Prop :=
  ∀ (s : State) (payload : List (BitVec 8)) (draws : List Nat),
    s.Ready → s.ham.fault = false → payload.length ≤ maxPayloadBytes s.params →
    14 * payload.length ≤ draws.length → (∀ u ∈ draws, u < 2 ^ s.params.w) →
    ∃ t : State, runPipeline payload 0 draws s = .ok (⟨payload, payload, ⟨14 * payload.length, 0, 0⟩⟩, t)

/-- 44_host_pipeline.md rule R141: which bytes of the two payloads are right, from the flips of their two blocks. -/
def Obligations.PipelineCorrectionBound : Prop :=
  ∀ (s : State) (payload : List (BitVec 8)) (rate : Nat) (draws : List Nat),
    s.Ready → s.ham.fault = false → rate ≤ 2 ^ s.params.w → payload.length ≤ maxPayloadBytes s.params →
    14 * payload.length ≤ draws.length → (∀ u ∈ draws, u < 2 ^ s.params.w) →
    ∃ (r : PipelineResult) (t : State), runPipeline payload rate draws s = .ok (r, t)
      ∧ (r.stats.uncorrBlocks = 0 → r.corrected = payload)
      ∧ (let flipped : Nat → List Bool := fun m => ((draws.drop (7 * m)).take 7).map fun u => decide (u < rate)
         let onData : Nat → Bool := fun m => [2, 4, 5, 6].any fun k => (flipped m).getD k false
         ∀ j, j < payload.length →
          (r.corrected[j]? = payload[j]?
              ↔ (flipped (2 * j)).count true ≤ 1 ∧ (flipped (2 * j + 1)).count true ≤ 1)
            ∧ (r.uncorrected[j]? = payload[j]? ↔ onData (2 * j) = false ∧ onData (2 * j + 1) = false))

/-- 44_host_pipeline.md rule R142: how many corrected bytes differ from those sent, from the uncorrectable blocks. -/
def Obligations.WrongBytesAreBounded : Prop :=
  ∀ (s : State) (payload : List (BitVec 8)) (rate : Nat) (draws : List Nat),
    s.Ready → s.ham.fault = false → rate ≤ 2 ^ s.params.w → payload.length ≤ maxPayloadBytes s.params →
    14 * payload.length ≤ draws.length → (∀ u ∈ draws, u < 2 ^ s.params.w) →
    ∃ (r : PipelineResult) (t : State), runPipeline payload rate draws s = .ok (r, t)
      ∧ (let wrong := ((r.corrected.zip payload).filter fun x => x.1 != x.2).length
         (r.stats.uncorrBlocks + 1) / 2 ≤ wrong ∧ wrong ≤ min payload.length r.stats.uncorrBlocks)

/-- 44_host_pipeline.md rule R139 and 70_reset_and_hazards.md rule R180: a call on a faulted HAM74 returns nothing but the
error; after every call that met an `ERR`, HAM74 has been reset; and whatever the calls were, the next one finds a HAM74 that
is ready and not faulted. -/
def Obligations.HostResetsBeforeTheNextRun : Prop :=
  (∀ (s : State) (c : PipelineCall), s.Ready →
    ∃ (result : Except HostError PipelineResult) (t : State), callPipeline c s = (result, t)
      ∧ t.Ready ∧ t.params = s.params
      ∧ (s.ham.fault = true → c.rate ≤ 2 ^ s.params.w → result = .error .deviceError)
      ∧ (result = .error .deviceError →
          t.ham.rate = 0 ∧ t.ham.totalBits = 0 ∧ t.ham.totalFlips = 0 ∧ t.ham.uncorrBlocks = 0
            ∧ t.ham.pos = 0 ∧ t.ham.blkf = 0 ∧ t.ham.fault = false ∧ t.ham.fcode = 0))
    ∧ ∀ (calls : List PipelineCall) (s : State), s.Ready → s.ham.fault = false →
        (callPipelines calls s).1.length = calls.length
          ∧ (callPipelines calls s).2.Ready ∧ (callPipelines calls s).2.ham.fault = false
end

