-- ==== Sys2Proof/Laws/PerInstr.lean ====
section
/-! SUPPORT. Statements about every instruction as it is written, one lemma per constructor. -/

namespace Sys2Proof.Laws

/-- OP and ARG of a word made of them (30_encoding.md rule R55). -/
theorem fields_of_word (op : OpSelect) (arg : Arg) : opField (op ++ arg) = op ∧ argField (op ++ arg) = arg := by
  have bit : ∀ k, BitVec.getLsbD (op ++ arg) k = if k < 7 then arg.getLsbD k else op.getLsbD (k - 7) := fun k =>
    BitVec.getLsbD_append
  constructor
  · apply BitVec.eq_of_getLsbD_eq
    intro k hk
    simp only [opField, BitVec.getLsbD_extractLsb', hk, decide_true, Bool.true_and]
    exact (bit (7 + k)).trans (by simp)
  · apply BitVec.eq_of_getLsbD_eq
    intro k hk
    simp only [argField, BitVec.getLsbD_extractLsb', hk, decide_true, Bool.true_and]
    exact (bit (0 + k)).trans (by simp [hk])

namespace RoundTrip

/-- The decoder reads back the instruction whose word the encoder wrote, its OP and its whole argument. -/
def Statement (i : Instr) : Prop :=
  decode (encode i) = i ∧ opField (encode i) = opOf i ∧ argField (encode i) = argOf i

theorem statement_of_op {i : Instr} (h : ∀ cmd : CmdWord, opField cmd = opOf i → argField cmd = argOf i → decode cmd = i) :
    Statement i :=
  have hf := fields_of_word (opOf i) (argOf i)
  ⟨h _ hf.1 hf.2, hf.1, hf.2⟩

theorem enc (arg : Arg) : Statement (.enc arg) :=
  statement_of_op fun _ ho ha => by simp [decode, ho, ha, opOf, argOf]

theorem decn (arg : Arg) : Statement (.decn arg) :=
  statement_of_op fun _ ho ha => by simp [decode, ho, ha, opOf, argOf]

theorem decc (arg : Arg) : Statement (.decc arg) :=
  statement_of_op fun _ ho ha => by simp [decode, ho, ha, opOf, argOf]

theorem chbegin (arg : Arg) : Statement (.chbegin arg) :=
  statement_of_op fun _ ho ha => by simp [decode, ho, ha, opOf, argOf]

theorem inj (arg : Arg) : Statement (.inj arg) :=
  statement_of_op fun _ ho ha => by simp [decode, ho, ha, opOf, argOf]

theorem reservedOp1 (arg : Arg) : Statement (.reservedOp1 arg) :=
  statement_of_op fun _ ho ha => by simp [decode, ho, ha, opOf, argOf]

theorem reservedOp6 (arg : Arg) : Statement (.reservedOp6 arg) :=
  statement_of_op fun _ ho ha => by simp [decode, ho, ha, opOf, argOf]

theorem reservedOp7 (arg : Arg) : Statement (.reservedOp7 arg) :=
  statement_of_op fun _ ho ha => by simp [decode, ho, ha, opOf, argOf]

end RoundTrip

end Sys2Proof.Laws
end

