-- ==== Sys2Proof/Laws/State.lean ====
section
/-! SUPPORT. One lemma per field per update of the state, true by unfolding the update once. -/

namespace Sys2Proof.Machine

variable {p : Params}

section mapHam

@[simp] theorem mapHam_params (s : State) (f : Ham74 s.params → Ham74 s.params) : (mapHam s f).params = s.params := rfl

@[simp] theorem mapHam_ham (s : State) (f : Ham74 s.params → Ham74 s.params) : (mapHam s f).ham = f s.ham := rfl

@[simp] theorem mapHam_mk (h : Ham74 p) (f : Ham74 p → Ham74 p) : mapHam ⟨p, h⟩ f = ⟨p, f h⟩ := rfl

end mapHam

section present

@[simp] theorem present_rate (o : Outputs) (h : Ham74 p) : (present o h).rate = h.rate := rfl

@[simp] theorem present_totalBits (o : Outputs) (h : Ham74 p) : (present o h).totalBits = h.totalBits := rfl

@[simp] theorem present_totalFlips (o : Outputs) (h : Ham74 p) : (present o h).totalFlips = h.totalFlips := rfl

@[simp] theorem present_uncorrBlocks (o : Outputs) (h : Ham74 p) : (present o h).uncorrBlocks = h.uncorrBlocks := rfl

@[simp] theorem present_pos (o : Outputs) (h : Ham74 p) : (present o h).pos = h.pos := rfl

@[simp] theorem present_blkf (o : Outputs) (h : Ham74 p) : (present o h).blkf = h.blkf := rfl

@[simp] theorem present_fault (o : Outputs) (h : Ham74 p) : (present o h).fault = h.fault := rfl

@[simp] theorem present_fcode (o : Outputs) (h : Ham74 p) : (present o h).fcode = h.fcode := rfl

@[simp] theorem present_resetSeen (o : Outputs) (h : Ham74 p) : (present o h).resetSeen = h.resetSeen := rfl

@[simp] theorem present_rateIn (o : Outputs) (h : Ham74 p) : (present o h).rateIn = h.rateIn := rfl

@[simp] theorem present_rndIn (o : Outputs) (h : Ham74 p) : (present o h).rndIn = h.rndIn := rfl

@[simp] theorem present_pending (o : Outputs) (h : Ham74 p) : (present o h).pending = h.pending := rfl

@[simp] theorem present_out (o : Outputs) (h : Ham74 p) : (present o h).out = some o := rfl

end present

section raiseDomainError

@[simp] theorem raiseDomainError_rate (c : Cause) (h : Ham74 p) : (raiseDomainError c h).rate = h.rate := rfl

@[simp] theorem raiseDomainError_totalBits (c : Cause) (h : Ham74 p) : (raiseDomainError c h).totalBits = h.totalBits := rfl

@[simp] theorem raiseDomainError_totalFlips (c : Cause) (h : Ham74 p) : (raiseDomainError c h).totalFlips = h.totalFlips := rfl

@[simp] theorem raiseDomainError_uncorrBlocks (c : Cause) (h : Ham74 p) : (raiseDomainError c h).uncorrBlocks = h.uncorrBlocks := rfl

@[simp] theorem raiseDomainError_pos (c : Cause) (h : Ham74 p) : (raiseDomainError c h).pos = h.pos := rfl

@[simp] theorem raiseDomainError_blkf (c : Cause) (h : Ham74 p) : (raiseDomainError c h).blkf = h.blkf := rfl

@[simp] theorem raiseDomainError_fault (c : Cause) (h : Ham74 p) : (raiseDomainError c h).fault = true := rfl

@[simp] theorem raiseDomainError_fcode (c : Cause) (h : Ham74 p) : (raiseDomainError c h).fcode = causeCode c := rfl

@[simp] theorem raiseDomainError_resetSeen (c : Cause) (h : Ham74 p) : (raiseDomainError c h).resetSeen = h.resetSeen := rfl

@[simp] theorem raiseDomainError_rateIn (c : Cause) (h : Ham74 p) : (raiseDomainError c h).rateIn = h.rateIn := rfl

@[simp] theorem raiseDomainError_rndIn (c : Cause) (h : Ham74 p) : (raiseDomainError c h).rndIn = h.rndIn := rfl

@[simp] theorem raiseDomainError_pending (c : Cause) (h : Ham74 p) : (raiseDomainError c h).pending = h.pending := rfl

@[simp] theorem raiseDomainError_out (c : Cause) (h : Ham74 p) : (raiseDomainError c h).out = some (errorOutputs (causeCode c)) := rfl

end raiseDomainError

section refuseWhileFaulted

@[simp] theorem refuseWhileFaulted_rate (h : Ham74 p) : (refuseWhileFaulted h).rate = h.rate := rfl

@[simp] theorem refuseWhileFaulted_totalBits (h : Ham74 p) : (refuseWhileFaulted h).totalBits = h.totalBits := rfl

@[simp] theorem refuseWhileFaulted_totalFlips (h : Ham74 p) : (refuseWhileFaulted h).totalFlips = h.totalFlips := rfl

@[simp] theorem refuseWhileFaulted_uncorrBlocks (h : Ham74 p) : (refuseWhileFaulted h).uncorrBlocks = h.uncorrBlocks := rfl

@[simp] theorem refuseWhileFaulted_pos (h : Ham74 p) : (refuseWhileFaulted h).pos = h.pos := rfl

@[simp] theorem refuseWhileFaulted_blkf (h : Ham74 p) : (refuseWhileFaulted h).blkf = h.blkf := rfl

@[simp] theorem refuseWhileFaulted_fault (h : Ham74 p) : (refuseWhileFaulted h).fault = h.fault := rfl

@[simp] theorem refuseWhileFaulted_fcode (h : Ham74 p) : (refuseWhileFaulted h).fcode = h.fcode := rfl

@[simp] theorem refuseWhileFaulted_resetSeen (h : Ham74 p) : (refuseWhileFaulted h).resetSeen = h.resetSeen := rfl

@[simp] theorem refuseWhileFaulted_rateIn (h : Ham74 p) : (refuseWhileFaulted h).rateIn = h.rateIn := rfl

@[simp] theorem refuseWhileFaulted_rndIn (h : Ham74 p) : (refuseWhileFaulted h).rndIn = h.rndIn := rfl

@[simp] theorem refuseWhileFaulted_pending (h : Ham74 p) : (refuseWhileFaulted h).pending = h.pending := rfl

@[simp] theorem refuseWhileFaulted_out (h : Ham74 p) : (refuseWhileFaulted h).out = some (errorOutputs h.fcode) := rfl

end refuseWhileFaulted

section applyReset

@[simp] theorem applyReset_rate (h : Ham74 p) : (applyReset h).rate = 0 := rfl

@[simp] theorem applyReset_totalBits (h : Ham74 p) : (applyReset h).totalBits = 0 := rfl

@[simp] theorem applyReset_totalFlips (h : Ham74 p) : (applyReset h).totalFlips = 0 := rfl

@[simp] theorem applyReset_uncorrBlocks (h : Ham74 p) : (applyReset h).uncorrBlocks = 0 := rfl

@[simp] theorem applyReset_pos (h : Ham74 p) : (applyReset h).pos = 0 := rfl

@[simp] theorem applyReset_blkf (h : Ham74 p) : (applyReset h).blkf = 0 := rfl

@[simp] theorem applyReset_fault (h : Ham74 p) : (applyReset h).fault = false := rfl

@[simp] theorem applyReset_fcode (h : Ham74 p) : (applyReset h).fcode = 0 := rfl

@[simp] theorem applyReset_resetSeen (h : Ham74 p) : (applyReset h).resetSeen = true := rfl

@[simp] theorem applyReset_rateIn (h : Ham74 p) : (applyReset h).rateIn = h.rateIn := rfl

@[simp] theorem applyReset_rndIn (h : Ham74 p) : (applyReset h).rndIn = h.rndIn := rfl

@[simp] theorem applyReset_pending (h : Ham74 p) : (applyReset h).pending = h.pending := rfl

@[simp] theorem applyReset_out (h : Ham74 p) : (applyReset h).out = none := rfl

end applyReset

section idle

@[simp] theorem idle_rate (h : Ham74 p) : (idle h).rate = h.rate := rfl

@[simp] theorem idle_totalBits (h : Ham74 p) : (idle h).totalBits = h.totalBits := rfl

@[simp] theorem idle_totalFlips (h : Ham74 p) : (idle h).totalFlips = h.totalFlips := rfl

@[simp] theorem idle_uncorrBlocks (h : Ham74 p) : (idle h).uncorrBlocks = h.uncorrBlocks := rfl

@[simp] theorem idle_pos (h : Ham74 p) : (idle h).pos = h.pos := rfl

@[simp] theorem idle_blkf (h : Ham74 p) : (idle h).blkf = h.blkf := rfl

@[simp] theorem idle_fault (h : Ham74 p) : (idle h).fault = h.fault := rfl

@[simp] theorem idle_fcode (h : Ham74 p) : (idle h).fcode = h.fcode := rfl

@[simp] theorem idle_resetSeen (h : Ham74 p) : (idle h).resetSeen = h.resetSeen := rfl

@[simp] theorem idle_rateIn (h : Ham74 p) : (idle h).rateIn = h.rateIn := rfl

@[simp] theorem idle_rndIn (h : Ham74 p) : (idle h).rndIn = h.rndIn := rfl

@[simp] theorem idle_pending (h : Ham74 p) : (idle h).pending = h.pending := rfl

@[simp] theorem idle_out (h : Ham74 p) : (idle h).out = none := rfl

end idle

section latch

@[simp] theorem latch_rate (i : Issue p.w) (rest : List (Issue p.w)) (h : Ham74 p) : (latch i rest h).rate = h.rate := rfl

@[simp] theorem latch_totalBits (i : Issue p.w) (rest : List (Issue p.w)) (h : Ham74 p) : (latch i rest h).totalBits = h.totalBits := rfl

@[simp] theorem latch_totalFlips (i : Issue p.w) (rest : List (Issue p.w)) (h : Ham74 p) : (latch i rest h).totalFlips = h.totalFlips := rfl

@[simp] theorem latch_uncorrBlocks (i : Issue p.w) (rest : List (Issue p.w)) (h : Ham74 p) : (latch i rest h).uncorrBlocks = h.uncorrBlocks := rfl

@[simp] theorem latch_pos (i : Issue p.w) (rest : List (Issue p.w)) (h : Ham74 p) : (latch i rest h).pos = h.pos := rfl

@[simp] theorem latch_blkf (i : Issue p.w) (rest : List (Issue p.w)) (h : Ham74 p) : (latch i rest h).blkf = h.blkf := rfl

@[simp] theorem latch_fault (i : Issue p.w) (rest : List (Issue p.w)) (h : Ham74 p) : (latch i rest h).fault = h.fault := rfl

@[simp] theorem latch_fcode (i : Issue p.w) (rest : List (Issue p.w)) (h : Ham74 p) : (latch i rest h).fcode = h.fcode := rfl

@[simp] theorem latch_resetSeen (i : Issue p.w) (rest : List (Issue p.w)) (h : Ham74 p) : (latch i rest h).resetSeen = h.resetSeen := rfl

@[simp] theorem latch_rateIn (i : Issue p.w) (rest : List (Issue p.w)) (h : Ham74 p) : (latch i rest h).rateIn = i.rateIn := rfl

@[simp] theorem latch_rndIn (i : Issue p.w) (rest : List (Issue p.w)) (h : Ham74 p) : (latch i rest h).rndIn = i.rndIn := rfl

@[simp] theorem latch_pending (i : Issue p.w) (rest : List (Issue p.w)) (h : Ham74 p) : (latch i rest h).pending = rest := rfl

@[simp] theorem latch_out (i : Issue p.w) (rest : List (Issue p.w)) (h : Ham74 p) : (latch i rest h).out = h.out := rfl

end latch

section beginPass

@[simp] theorem beginPass_rate (h : Ham74 p) : (beginPass h).rate = h.rateIn := rfl

@[simp] theorem beginPass_totalBits (h : Ham74 p) : (beginPass h).totalBits = 0 := rfl

@[simp] theorem beginPass_totalFlips (h : Ham74 p) : (beginPass h).totalFlips = 0 := rfl

@[simp] theorem beginPass_uncorrBlocks (h : Ham74 p) : (beginPass h).uncorrBlocks = 0 := rfl

@[simp] theorem beginPass_pos (h : Ham74 p) : (beginPass h).pos = 0 := rfl

@[simp] theorem beginPass_blkf (h : Ham74 p) : (beginPass h).blkf = 0 := rfl

@[simp] theorem beginPass_fault (h : Ham74 p) : (beginPass h).fault = h.fault := rfl

@[simp] theorem beginPass_fcode (h : Ham74 p) : (beginPass h).fcode = h.fcode := rfl

@[simp] theorem beginPass_resetSeen (h : Ham74 p) : (beginPass h).resetSeen = h.resetSeen := rfl

@[simp] theorem beginPass_rateIn (h : Ham74 p) : (beginPass h).rateIn = h.rateIn := rfl

@[simp] theorem beginPass_rndIn (h : Ham74 p) : (beginPass h).rndIn = h.rndIn := rfl

@[simp] theorem beginPass_pending (h : Ham74 p) : (beginPass h).pending = h.pending := rfl

@[simp] theorem beginPass_out (h : Ham74 p) : (beginPass h).out = h.out := rfl

end beginPass

section countBit

@[simp] theorem countBit_rate (flip : Bool) (h : Ham74 p) : (countBit flip h).rate = h.rate := rfl

@[simp] theorem countBit_totalBits (flip : Bool) (h : Ham74 p) : (countBit flip h).totalBits = h.totalBits + 1 := rfl

@[simp] theorem countBit_totalFlips (flip : Bool) (h : Ham74 p) : (countBit flip h).totalFlips = if flip then h.totalFlips + 1 else h.totalFlips := rfl

@[simp] theorem countBit_uncorrBlocks (flip : Bool) (h : Ham74 p) : (countBit flip h).uncorrBlocks =
      if flip && decide (h.blkf = 1) then h.uncorrBlocks + 1 else h.uncorrBlocks := rfl

@[simp] theorem countBit_pos (flip : Bool) (h : Ham74 p) : (countBit flip h).pos = if h.pos = 6 then 0 else h.pos + 1 := rfl

@[simp] theorem countBit_blkf (flip : Bool) (h : Ham74 p) : (countBit flip h).blkf =
      if h.pos = 6 then 0 else if flip then h.blkf + 1 else h.blkf := rfl

@[simp] theorem countBit_fault (flip : Bool) (h : Ham74 p) : (countBit flip h).fault = h.fault := rfl

@[simp] theorem countBit_fcode (flip : Bool) (h : Ham74 p) : (countBit flip h).fcode = h.fcode := rfl

@[simp] theorem countBit_resetSeen (flip : Bool) (h : Ham74 p) : (countBit flip h).resetSeen = h.resetSeen := rfl

@[simp] theorem countBit_rateIn (flip : Bool) (h : Ham74 p) : (countBit flip h).rateIn = h.rateIn := rfl

@[simp] theorem countBit_rndIn (flip : Bool) (h : Ham74 p) : (countBit flip h).rndIn = h.rndIn := rfl

@[simp] theorem countBit_pending (flip : Bool) (h : Ham74 p) : (countBit flip h).pending = h.pending := rfl

@[simp] theorem countBit_out (flip : Bool) (h : Ham74 p) : (countBit flip h).out = h.out := rfl

end countBit

section issueNext

@[simp] theorem issueNext_params (s : State) (i : Issue s.params.w) : (issueNext s i).params = s.params := rfl

@[simp] theorem issueNext_ham (s : State) (i : Issue s.params.w) :
    (issueNext s i).ham = { s.ham with pending := i :: s.ham.pending } := rfl

end issueNext

end Sys2Proof.Machine
end

