-- ==== Sys2Proof/Laws/Ops.lean ====
section
/-! SUPPORT. For each shared operation, once, everything it can do. -/

namespace Sys2Proof.Machine

variable {p : Params}

/-- What the fault wrapper can do: the refusal, the first failing check's DomainError, or the operation's effect. -/
theorem operate_cases (check : Ham74 p → Option Cause) (effect : Ham74 p → Ham74 p) (h : Ham74 p) :
    (h.fault = true ∧ operate check effect h = refuseWhileFaulted h)
      ∨ (h.fault = false ∧ ∃ c, check h = some c ∧ operate check effect h = raiseDomainError c h)
      ∨ (h.fault = false ∧ check h = none ∧ operate check effect h = effect h) := by
  unfold operate
  cases hf : h.fault with
  | true => exact .inl ⟨rfl, by simp⟩
  | false =>
    cases hc : check h with
    | some c => exact .inr (.inl ⟨rfl, c, rfl, by simp⟩)
    | none => exact .inr (.inr ⟨rfl, rfl, by simp⟩)

theorem operate_of_fault {check : Ham74 p → Option Cause} {effect : Ham74 p → Ham74 p} {h : Ham74 p}
    (hf : h.fault = true) : operate check effect h = refuseWhileFaulted h := by simp [operate, hf]

theorem operate_of_check {check : Ham74 p → Option Cause} {effect : Ham74 p → Ham74 p} {h : Ham74 p} {c : Cause}
    (hf : h.fault = false) (hc : check h = some c) : operate check effect h = raiseDomainError c h := by
  simp [operate, hf, hc]

theorem operate_of_pass {check : Ham74 p → Option Cause} {effect : Ham74 p → Ham74 p} {h : Ham74 p}
    (hf : h.fault = false) (hc : check h = none) : operate check effect h = effect h := by simp [operate, hf, hc]

/-- The check of ENC in numbers (30_encoding.md rule R60 (a)). -/
theorem encArgTooLarge_iff (arg : Arg) : encArgTooLarge arg = true ↔ 16 ≤ arg.toNat := by
  revert arg; decide

/-- The check of INJ in numbers (30_encoding.md rule R60 (b)). -/
theorem injArgTooLarge_iff (arg : Arg) : injArgTooLarge arg = true ↔ 2 ≤ arg.toNat := by
  revert arg; decide

/-- The check of CHBEGIN in numbers (30_encoding.md rule R60 (c)). -/
theorem chbeginArgPresent_iff (arg : Arg) : chbeginArgPresent arg = true ↔ arg.toNat ≠ 0 := by
  revert arg; decide

/-- The flip decision in numbers (43_channel.md rule R117). -/
theorem flips_iff (h : Ham74 p) : flips h = true ↔ h.rndIn.toNat < h.rate.toNat := by
  have hlt : h.rndIn.toNat < 2 ^ (p.w + 1) := Nat.lt_of_lt_of_le h.rndIn.isLt (Nat.pow_le_pow_right (by decide) (by omega))
  simp [flips, BitVec.lt_def, Nat.mod_eq_of_lt hlt]

/-- The check of CHBEGIN, cause by cause (60_exceptions.md rule R157). -/
theorem chbeginCheck_eq_none_iff (arg : Arg) (h : Ham74 p) :
    chbeginCheck arg h = none ↔ arg.toNat = 0 ∧ h.rateIn.toNat ≤ 2 ^ p.w := by
  have ha := chbeginArgPresent_iff arg
  unfold chbeginCheck
  cases hb : chbeginArgPresent arg <;> simp_all [rateAboveOne]

/-- The check of INJ, cause by cause (60_exceptions.md rule R157). -/
theorem injCheck_eq_none_iff (arg : Arg) (h : Ham74 p) :
    injCheck arg h = none ↔ arg.toNat < 2 ∧ h.totalBits.toNat ≠ 2 ^ p.cntw - 1 := by
  have ha := injArgTooLarge_iff arg
  unfold injCheck
  cases hb : injArgTooLarge arg with
  | true => simp [show ¬arg.toNat < 2 by have := ha.mp hb; omega]
  | false => simp [show arg.toNat < 2 by by_contra hc; simp [ha.mpr (by omega)] at hb, passFull]

/-- No count wraps while the pass is not full. -/
theorem toNat_add_one_of_not_full {n : Nat} (v : BitVec n) (hv : v.toNat ≠ 2 ^ n - 1) :
    (v + 1).toNat = v.toNat + 1 := by
  have hlt := v.isLt
  cases n with
  | zero => simp at hlt hv; omega
  | succ n =>
    have h1 : (1 : BitVec (n + 1)).toNat = 1 := by
      simp
    rw [BitVec.toNat_add, h1, Nat.mod_eq_of_lt (by omega)]

/-- What an instruction does to the machine, as one function of the machine: every meaning answers a next state and leaves
the parameters alone. -/
def hamOp (i : Instr) : Ham74 p → Ham74 p :=
  match i with
  | .enc arg => encOp arg
  | .decn arg => decnOp arg
  | .decc arg => deccOp arg
  | .chbegin arg => chbeginOp arg
  | .inj arg => injOp arg
  | .reservedOp1 _ => reservedOp
  | .reservedOp6 _ => reservedOp
  | .reservedOp7 _ => reservedOp

theorem exec_eq_next (i : Instr) (s : State) : exec i s = .next (mapHam s (hamOp i)) := by
  cases i <;> rfl

/-- Everything an instruction can do: a refusal while faulted, a DomainError, or a result (with the writes of CHBEGIN or
INJ, or with no write). -/
theorem hamOp_cases (i : Instr) (h : Ham74 p) :
    (h.fault = true ∧ hamOp i h = refuseWhileFaulted h)
      ∨ (h.fault = false ∧ ∃ c, hamOp i h = raiseDomainError c h)
      ∨ (h.fault = false ∧ ∃ o, hamOp i h = present o h)
      ∨ (h.fault = false ∧ h.rateIn.toNat ≤ 2 ^ p.w ∧ ∃ o, hamOp i h = present o (beginPass h))
      ∨ (h.fault = false ∧ h.totalBits.toNat ≠ 2 ^ p.cntw - 1
          ∧ ∃ o, hamOp i h = present o (countBit (flips h) h)) := by
  have lift : ∀ (check : Ham74 p → Option Cause) (effect : Ham74 p → Ham74 p), hamOp i h = operate check effect h →
      (h.fault = true ∧ hamOp i h = refuseWhileFaulted h)
        ∨ (h.fault = false ∧ ∃ c, hamOp i h = raiseDomainError c h)
        ∨ (h.fault = false ∧ check h = none ∧ hamOp i h = effect h) := by
    intro check effect he
    rcases operate_cases check effect h with ⟨hf, h1⟩ | ⟨hf, c, -, h1⟩ | ⟨hf, hc, h1⟩
    · exact .inl ⟨hf, he.trans h1⟩
    · exact .inr (.inl ⟨hf, c, he.trans h1⟩)
    · exact .inr (.inr ⟨hf, hc, he.trans h1⟩)
  cases i with
  | enc arg =>
    rcases lift (fun _ => encCheck arg) (present (resultOutputs (encodeSymbol (symbolOf arg)) false)) rfl with h1 | h1 | ⟨hf, -, h1⟩
    exacts [.inl h1, .inr (.inl h1), .inr (.inr (.inl ⟨hf, _, h1⟩))]
  | decn arg =>
    rcases lift (fun _ => none) (present (decodeOutputs false arg)) rfl with h1 | h1 | ⟨hf, -, h1⟩
    exacts [.inl h1, .inr (.inl h1), .inr (.inr (.inl ⟨hf, _, h1⟩))]
  | decc arg =>
    rcases lift (fun _ => none) (present (decodeOutputs true arg)) rfl with h1 | h1 | ⟨hf, -, h1⟩
    exacts [.inl h1, .inr (.inl h1), .inr (.inr (.inl ⟨hf, _, h1⟩))]
  | chbegin arg =>
    rcases lift (chbeginCheck arg) (fun h => present (resultOutputs 0 false) (beginPass h)) rfl with h1 | h1 | ⟨hf, hc, h1⟩
    exacts [.inl h1, .inr (.inl h1),
      .inr (.inr (.inr (.inl ⟨hf, ((chbeginCheck_eq_none_iff arg h).mp hc).2, _, h1⟩)))]
  | inj arg =>
    rcases lift (injCheck arg) (fun h => present (injOutputs (streamBitOf arg) (flips h)) (countBit (flips h) h)) rfl with h1 | h1 | ⟨hf, hc, h1⟩
    exacts [.inl h1, .inr (.inl h1),
      .inr (.inr (.inr (.inr ⟨hf, ((injCheck_eq_none_iff arg h).mp hc).2, _, h1⟩)))]
  | reservedOp1 arg =>
    rcases lift (fun _ => some .reserved) id rfl with h1 | h1 | ⟨-, hc, -⟩
    exacts [.inl h1, .inr (.inl h1), absurd hc (by simp)]
  | reservedOp6 arg =>
    rcases lift (fun _ => some .reserved) id rfl with h1 | h1 | ⟨-, hc, -⟩
    exacts [.inl h1, .inr (.inl h1), absurd hc (by simp)]
  | reservedOp7 arg =>
    rcases lift (fun _ => some .reserved) id rfl with h1 | h1 | ⟨-, hc, -⟩
    exacts [.inl h1, .inr (.inl h1), absurd hc (by simp)]

/-- Every instruction presents outputs whose `ERR` is `FAULT` after it (60_exceptions.md rules R154, R155). -/
theorem hamOp_out (i : Instr) (h : Ham74 p) :
    ∃ o, (hamOp i h).out = some o ∧ o.err = (hamOp i h).fault := by
  have lift : ∀ (check : Ham74 p → Option Cause) (effect : Ham74 p → Ham74 p),
      (h.fault = false → check h = none → ∃ o, (effect h).out = some o ∧ o.err = (effect h).fault) →
      ∃ o, (operate check effect h).out = some o ∧ o.err = (operate check effect h).fault := by
    intro check effect hk
    rcases operate_cases check effect h with ⟨hf, h1⟩ | ⟨-, c, -, h1⟩ | ⟨hf, hc, h1⟩ <;> rw [h1]
    · exact ⟨_, rfl, hf.symm⟩
    · exact ⟨_, rfl, rfl⟩
    · exact hk hf hc
  cases i with
  | enc arg => exact lift _ _ fun hf _ => ⟨_, rfl, hf.symm⟩
  | decn arg => exact lift _ _ fun hf _ => ⟨_, rfl, hf.symm⟩
  | decc arg => exact lift _ _ fun hf _ => ⟨_, rfl, hf.symm⟩
  | chbegin arg => exact lift _ _ fun hf _ => ⟨_, rfl, hf.symm⟩
  | inj arg => exact lift _ _ fun hf _ => ⟨_, rfl, hf.symm⟩
  | reservedOp1 arg => exact lift _ _ fun _ hc => nomatch hc
  | reservedOp6 arg => exact lift _ _ fun _ hc => nomatch hc
  | reservedOp7 arg => exact lift _ _ fun _ hc => nomatch hc

/-- No instruction touches `resetSeen`: it is the model's own (log 5). -/
theorem hamOp_resetSeen (i : Instr) (h : Ham74 p) : (hamOp i h).resetSeen = h.resetSeen := by
  rcases hamOp_cases i h with ⟨-, h1⟩ | ⟨-, _, h1⟩ | ⟨-, _, h1⟩ | ⟨-, -, _, h1⟩ | ⟨-, -, _, h1⟩ <;> rw [h1] <;> rfl

end Sys2Proof.Machine
end

