-- ==== Sys2Proof/Laws/Step.lean ====
section
/-! SUPPORT. Everything a step can do, and what one issue of the host does in a machine that is ready. -/

namespace Sys2Proof.Machine

variable {p : Params}

/-- Everything a step that answers a next state can do: nothing was issued, a reset, or one instruction. -/
theorem step_cases {h : Ham74 p} {t : State} (ht : step ⟨p, h⟩ = .next t) :
    (h.pending = [] ∧ t = ⟨p, idle h⟩)
      ∨ (∃ i rest, h.pending = i :: rest ∧ i.rst = true ∧ t = ⟨p, applyReset (latch i rest h)⟩)
      ∨ (∃ i rest, h.pending = i :: rest ∧ i.rst = false ∧ h.resetSeen = true
          ∧ t = ⟨p, hamOp (decode i.cmd) (latch i rest h)⟩) := by
  unfold step at ht
  split at ht
  · cases hp : h.pending with
    | nil =>
      simp only [hp] at ht
      exact .inl ⟨rfl, (Host.Outcome.next.inj ht).symm⟩
    | cons i rest =>
      simp only [hp, runIssue] at ht
      split at ht
      · exact .inr (.inl ⟨i, rest, rfl, by assumption, (Host.Outcome.next.inj ht).symm⟩)
      · split at ht
        · rw [exec_eq_next] at ht
          exact .inr (.inr ⟨i, rest, rfl, by simpa using ‹¬i.rst = true›, by assumption,
            (Host.Outcome.next.inj ht).symm⟩)
        · cases ht
  · cases ht

/-- In a machine that is ready, a step with a command pending is that command's instruction. -/
theorem step_of_command {h : Ham74 p} {i : Issue p.w} {rest : List (Issue p.w)} (hr : State.Ready ⟨p, h⟩)
    (hp : h.pending = i :: rest) (hi : i.rst = false) :
    step ⟨p, h⟩ = exec (decode i.cmd) ⟨p, latch i rest h⟩ := by
  have h1 : p.legal = true := hr.1
  have h2 : h.resetSeen = true := hr.2
  simp [step, h1, hp, runIssue, hi, h2]

/-- In a machine that is ready, the operation the host issues next runs in the next step. -/
theorem step_issueNext {h : Ham74 p} {i : Issue p.w} (hr : State.Ready ⟨p, h⟩) (hi : i.rst = false) :
    step (issueNext ⟨p, h⟩ i) = .next ⟨p, hamOp (decode i.cmd) (latch i h.pending h)⟩ := by
  have hr' : State.Ready ⟨p, { h with pending := i :: h.pending }⟩ := hr
  exact (step_of_command hr' rfl hi).trans (exec_eq_next _ _)

/-- What the assembler makes of an operation it accepts: a command word that decodes to that operation. -/
theorem decode_of_assemble {op : AsmOp} {i : Issue p.w} (ha : assemble p op = some i) :
    i.rst = false ∧ i.cmd = encode (asmInstr op) ∧ i.rateIn = BitVec.ofNat (p.w + 1) (asmRateIn op)
      ∧ i.rndIn = BitVec.ofNat p.w (asmRndIn op) := by
  unfold assemble at ha
  split at ha
  · cases ha; exact ⟨rfl, rfl, rfl, rfl⟩
  · cases ha

end Sys2Proof.Machine
end

