-- ==== Sys2Proof/Laws/Host.lean ====
section
/-! SUPPORT. What the host's operations do, one lemma each: an operation of a run, a run, the reset after
an error, and the value of a sequence. -/

namespace Sys2Proof.Machine

variable {p : Params}

/-- Decoding reads back every instruction (30_encoding.md rules R55, R56). -/
theorem decode_encode (i : Instr) : decode (encode i) = i := by
  cases i with
  | enc a => exact (Laws.RoundTrip.enc a).1
  | decn a => exact (Laws.RoundTrip.decn a).1
  | decc a => exact (Laws.RoundTrip.decc a).1
  | chbegin a => exact (Laws.RoundTrip.chbegin a).1
  | inj a => exact (Laws.RoundTrip.inj a).1
  | reservedOp1 a => exact (Laws.RoundTrip.reservedOp1 a).1
  | reservedOp6 a => exact (Laws.RoundTrip.reservedOp6 a).1
  | reservedOp7 a => exact (Laws.RoundTrip.reservedOp7 a).1

/-- One operation of a run in a machine that is ready: if it is accepted and does not fault, the run goes on from the state
it leaves, with its outputs first. -/
theorem runOps_cons {h : Ham74 p} {op : AsmOp} {ops : List AsmOp} {i : Issue p.w} {o : Outputs}
    (hr : State.Ready ⟨p, h⟩) (ha : assemble p op = some i)
    (ho : (hamOp (asmInstr op) (latch i h.pending h)).out = some o) (he : o.err = false) :
    runOps (op :: ops) ⟨p, h⟩ =
      (runOps ops ⟨p, hamOp (asmInstr op) (latch i h.pending h)⟩).map fun r => (o :: r.1, r.2) := by
  obtain ⟨hi, hc, -, -⟩ := decode_of_assemble ha
  have hs := step_issueNext hr hi
  rw [hc, decode_encode] at hs
  simp only [runOps, ha, hs, ho, he, Bool.false_eq_true, if_false]
  cases runOps ops ⟨p, hamOp (asmInstr op) (latch i h.pending h)⟩ <;> rfl

/-- The host's reset leaves the reset state and the host's own port values. -/
theorem hostReset_eq (h : Ham74 p) (hl : p.legal = true) : hostReset ⟨p, h⟩ = ⟨p, applyReset h⟩ := by
  simp [hostReset, issueNext, step, runIssue, hl, latch, applyReset]

/-- One operation of a run, whatever comes of it: rejected by the assembler, met by an `ERR`, or followed by the rest. -/
theorem runOps_cons_cases {h : Ham74 p} (hr : State.Ready ⟨p, h⟩) (op : AsmOp) (ops : List AsmOp) :
    (assemble p op = none ∧ runOps (op :: ops) ⟨p, h⟩ = .error ⟨.operandOutOfRange, ⟨p, h⟩⟩)
      ∨ ∃ g : Ham74 p, State.Ready ⟨p, g⟩ ∧ (h.fault = true → g.fault = true)
          ∧ ((g.fault = true ∧ runOps (op :: ops) ⟨p, h⟩ = .error ⟨.deviceError, ⟨p, g⟩⟩)
            ∨ (g.fault = false ∧ ∃ o, runOps (op :: ops) ⟨p, h⟩ = (runOps ops ⟨p, g⟩).map fun r => (o :: r.1, r.2))) := by
  cases ha : assemble p op with
  | none => exact .inl ⟨rfl, by simp only [runOps, ha]⟩
  | some i =>
    obtain ⟨hi, hc, -, -⟩ := decode_of_assemble ha
    have hs := step_issueNext hr hi
    rw [hc, decode_encode] at hs
    obtain ⟨o, ho, he⟩ := hamOp_out (asmInstr op) (latch i h.pending h)
    refine .inr ⟨hamOp (asmInstr op) (latch i h.pending h), ⟨hr.1, (hamOp_resetSeen _ _).trans hr.2⟩, fun hf => ?_, ?_⟩
    · rcases hamOp_cases (asmInstr op) (latch i h.pending h) with ⟨-, h1⟩ | ⟨h2, _⟩ | ⟨h2, _⟩ | ⟨h2, _⟩ | ⟨h2, _⟩
      · rw [h1]; exact hf
      all_goals exact absurd (hf.symm.trans h2) (by decide)
    · cases hg : (hamOp (asmInstr op) (latch i h.pending h)).fault with
      | true => exact .inl ⟨rfl, by simp only [runOps, ha, hs, ho, he, hg, if_true]⟩
      | false => exact .inr ⟨rfl, o, runOps_cons hr ha ho (he.trans hg)⟩

/-- Everything a run of operations can leave, from a machine that is ready: it stays ready; it ends unfaulted if it began so,
unless it met an `ERR`; and it ends unfaulted in any case if it ran an operation to its end. -/
theorem runOps_cases (ops : List AsmOp) {h : Ham74 p} (hr : State.Ready ⟨p, h⟩) :
    (∃ os g, runOps ops ⟨p, h⟩ = .ok (os, ⟨p, g⟩) ∧ os.length = ops.length ∧ State.Ready ⟨p, g⟩
        ∧ (h.fault = false ∨ ops ≠ [] → g.fault = false))
      ∨ (∃ g, runOps ops ⟨p, h⟩ = .error ⟨.deviceError, ⟨p, g⟩⟩ ∧ State.Ready ⟨p, g⟩)
      ∨ (∃ g, runOps ops ⟨p, h⟩ = .error ⟨.operandOutOfRange, ⟨p, g⟩⟩ ∧ State.Ready ⟨p, g⟩
        ∧ (h.fault = false → g.fault = false) ∧ ∃ op ∈ ops, assemble p op = none) := by
  induction ops generalizing h with
  | nil => exact .inl ⟨[], h, rfl, rfl, hr, fun hf => hf.elim id fun hn => absurd rfl hn⟩
  | cons op ops ih =>
    rcases runOps_cons_cases hr op ops with ⟨ha, h1⟩ | ⟨g, hg, -, ⟨-, h1⟩ | ⟨hf, o, h1⟩⟩
    · exact .inr (.inr ⟨h, h1, hr, id, op, by simp, ha⟩)
    · exact .inr (.inl ⟨g, h1, hg⟩)
    · rw [h1]
      rcases ih hg with ⟨os, k, h2, hl, hk, hkf⟩ | ⟨k, h2, hk⟩ | ⟨k, h2, hk, hkf, b, hb, hab⟩ <;> rw [h2]
      · exact .inl ⟨o :: os, k, rfl, by simp [hl], hk, fun _ => hkf (.inl hf)⟩
      · exact .inr (.inl ⟨k, rfl, hk⟩)
      · exact .inr (.inr ⟨k, rfl, hk, fun _ => hkf hf, b, .tail _ hb, hab⟩)

@[simp] theorem recover_deviceError (s : State) : recover ⟨.deviceError, s⟩ = hostReset s := rfl

/-- The value of a sequence is below `2^n` (40_bit_conversion.md rule R70). -/
theorem bitsToInt_lt (bits : List Bool) : bitsToInt bits < 2 ^ bits.length := by
  induction bits with
  | nil => simp [bitsToInt]
  | cons b bs ih =>
    have hb : b.toNat ≤ 1 := Bool.toNat_le b
    have hm : b.toNat * 2 ^ bs.length ≤ 1 * 2 ^ bs.length := Nat.mul_le_mul_right _ hb
    simp only [bitsToInt, List.length_cons, Nat.pow_succ]
    omega

/-- `int_to_bits` gives exactly `width` bits (40_bit_conversion.md rule R71). -/
theorem bigEndianBits_length (value width : Nat) : (bigEndianBits value width).length = width := by
  induction width with
  | zero => rfl
  | succ w ih => simp [bigEndianBits, ih]

/-- A nibble's Symbol never fails to convert, and its vector is the nibble (44_host_pipeline.md rule R131;
40_bit_conversion.md rule R74). -/
theorem nibble_converts : ∀ n : Fin 16,
    intToBits n.val 4 = .ok (bitsOfVec (BitVec.ofNat 4 n.val)) := by
  intro n
  have h : ∀ n : Fin 16, bigEndianBits n.val 4 = bitsOfVec (BitVec.ofNat 4 n.val) := by decide
  simp [intToBits, h n]

end Sys2Proof.Machine
end

