-- ==== Sys2Proof/Tests/Slice0.lean ====
section
/-! SUPPORT. Tests of single steps against the vectors of 95_test_vectors.md, the smoke test of WellFormed, and for every
statement with hypotheses a concrete case that meets them all. -/

namespace Sys2Proof.Tests

open Sys2Proof.Machine

/-! Small states. -/

/-- The machine after reset with given parameters. -/
def fresh (w cntw : Nat) : State := ⟨⟨w, cntw⟩, Ham74.reset ⟨w, cntw⟩⟩

/-- After a RANGE fault. -/
def faulted : State := mapHam (fresh 16 32) fun h => { h with fault := true, fcode := 1 }

/-- The mid-block state of 95_test_vectors.md section 4.4: 0x2000 / 10 / 3 / 1 / 3 / 2. -/
def midBlock : State := ⟨⟨16, 32⟩, { Ham74.reset ⟨16, 32⟩ with
  rate := 0x2000, totalBits := 10, totalFlips := 3, uncorrBlocks := 1, pos := 3, blkf := 2 }⟩

/-- 95_test_vectors.md section 4.3: 0x8000 / 6 / 1 / 0 / 6 / 1, and a draw that flips on the port. -/
def seventhBit : State := ⟨⟨16, 32⟩, { Ham74.reset ⟨16, 32⟩ with
  rate := 0x8000, totalBits := 6, totalFlips := 1, pos := 6, blkf := 1, rndIn := 0 }⟩

/-- A full pass at CNTW = 3 (95_test_vectors.md section 4.6). -/
def fullPass : State := ⟨⟨16, 3⟩, { Ham74.reset ⟨16, 3⟩ with totalBits := 7 }⟩

/-- One bit before the full pass. -/
def lastBit : State := ⟨⟨16, 3⟩, { Ham74.reset ⟨16, 3⟩ with totalBits := 6, pos := 6 }⟩

/-- A state with a rate waiting on `RATE_IN`. -/
def rateOffered (t : BitVec 17) : State := ⟨⟨16, 32⟩, { midBlock.ham with rateIn := t }⟩

/-- A state with `RATE` set. -/
def rateSet (t : BitVec 17) : State := ⟨⟨16, 32⟩, { Ham74.reset ⟨16, 32⟩ with rate := t }⟩

/-- A state whose host issues `cmd` next, with or without `RST`. -/
def issuing (rst : Bool) (cmd : CmdWord) (s : State) : State := issueNext s ⟨rst, cmd, 0, 0⟩

/-- Whether an outcome is a next state that passes a check. -/
def nextPasses (r : Result) (f : State → Bool) : Bool :=
  match r with
  | .next t => f t
  | _ => false

/-- The outputs an outcome presents, with the numbers of `RES` and `ECODE`. -/
def presents (r : Result) (res : Nat) (wasc err : Bool) (ecode : Nat) : Bool :=
  nextPasses r fun t => decide (t.ham.out = some ⟨BitVec.ofNat 7 res, wasc, err, BitVec.ofNat 3 ecode⟩)

/-- The eight state elements as numbers, in the order of 10_state.md rule R22. -/
def elements (s : State) : List Nat :=
  [s.ham.rate.toNat, s.ham.totalBits.toNat, s.ham.totalFlips.toNat, s.ham.uncorrBlocks.toNat, s.ham.pos.toNat,
    s.ham.blkf.toNat, s.ham.fault.toNat, s.ham.fcode.toNat]

/-! WellFormed refuses an ill-formed term of each check, and accepts its neighbour. -/

theorem test_wellFormed_refuses_wide_enc :
    (Instr.enc 16).wellFormed = false ∧ (Instr.enc 15).wellFormed = true := by decide

theorem test_wellFormed_refuses_wide_inj :
    (Instr.inj 2).wellFormed = false ∧ (Instr.inj 1).wellFormed = true := by decide

theorem test_wellFormed_refuses_chbegin_argument :
    (Instr.chbegin 1).wellFormed = false ∧ (Instr.chbegin 0).wellFormed = true := by decide

theorem test_wellFormed_refuses_reserved :
    (Instr.reservedOp1 0).wellFormed = false ∧ (Instr.reservedOp6 0).wellFormed = false
      ∧ (Instr.reservedOp7 0).wellFormed = false := by decide

/-! Decoding: words of 95_test_vectors.md sections 2 to 5, one a family, and the words the operand check turns away. -/

theorem test_decode_enc : decodeTableWord 10 0x00B = some (.enc 0xB) := by decide

theorem test_decode_decn : decodeTableWord 10 0x123 = some (.decn 0x23) := by decide

theorem test_decode_decc : decodeTableWord 10 0x1A3 = some (.decc 0x23) := by decide

theorem test_decode_chbegin : decodeTableWord 10 0x200 = some (.chbegin 0) := by decide

theorem test_decode_inj : decodeTableWord 10 0x281 = some (.inj 1) := by decide

theorem test_decode_reserved :
    decodeTableWord 10 0x0FF = some (.reservedOp1 127) ∧ decodeTableWord 10 0x300 = some (.reservedOp6 0)
      ∧ decodeTableWord 10 0x3FF = some (.reservedOp7 127) := by decide

theorem test_decode_keeps_illegal_arguments :
    decodeTableWord 10 0x01B = some (.enc 0x1B) ∧ decodeTableWord 10 0x282 = some (.inj 2)
      ∧ decodeTableWord 10 0x201 = some (.chbegin 1) := by decide

theorem test_decode_rejects_wide_word : decodeWord 0x400 = .error .widerThanCommandWord := by rfl

/-! Encoding: the patterns of 30_encoding.md rule R57. -/

theorem test_encode_words :
    encode (.enc 0xF) = 0b0000001111#10 ∧ encode (.decn 0x7F) = 0b0101111111#10
      ∧ encode (.chbegin 0) = 0b1000000000#10 ∧ encode (.inj 1) = 0b1010000001#10 := by decide

/-! Single operations. -/

/-- 95_test_vectors.md section 1. -/
theorem test_enc_source_example : presents (exec (.enc 0xB) (fresh 16 32)) 0x33 false false 0 = true := by decide

/-- 95_test_vectors.md section 2, CMD 0x01B. -/
theorem test_enc_range :
    presents (exec (.enc 0x1B) midBlock) 0 false true 1 = true
      ∧ nextPasses (exec (.enc 0x1B) midBlock) (fun t => elements t == [0x2000, 10, 3, 1, 3, 2, 1, 1]) = true := by decide

/-- Program 2, step 21. -/
theorem test_decn_passes_the_error : presents (exec (.decn 0x23) (fresh 16 32)) 0x3 false false 0 = true := by decide

/-- 95_test_vectors.md section 3.2: both flips on parity bits. -/
theorem test_decn_ignores_parity : presents (exec (.decn 0x53) (fresh 16 32)) 0xB false false 0 = true := by decide

/-- 95_test_vectors.md section 1, step 3. -/
theorem test_decc_source_example : presents (exec (.decc 0x23) (fresh 16 32)) 0xB true false 0 = true := by decide

/-- 95_test_vectors.md section 3.2: a double error is miscorrected. -/
theorem test_decc_miscorrects : presents (exec (.decc 0x53) (fresh 16 32)) 0x3 true false 0 = true := by decide

/-- 95_test_vectors.md section 4.4, third row: rate 1 in mid-block. -/
theorem test_chbegin_mid_block :
    nextPasses (exec (.chbegin 0) (rateOffered 0x10000)) (fun t => elements t == [0x10000, 0, 0, 0, 0, 0, 0, 0]) = true := by
  decide

/-- 95_test_vectors.md section 4.4, fourth and last rows: ARG is checked before RATE_IN. -/
theorem test_chbegin_faults :
    presents (exec (.chbegin 0) (rateOffered 0x10001)) 0 false true 2 = true
      ∧ presents (exec (.chbegin 1) (rateOffered 0x1FFFF)) 0 false true 3 = true := by decide

/-- 95_test_vectors.md section 4.3, fifth row: the second flip lands on the seventh bit. -/
theorem test_inj_second_flip_on_seventh_bit :
    presents (exec (.inj 0) seventhBit) 1 false false 0 = true
      ∧ nextPasses (exec (.inj 0) seventhBit) (fun t => elements t == [0x8000, 7, 2, 1, 0, 0, 0, 0]) = true := by decide

/-- 95_test_vectors.md sections 4.6 and 5: OVERFLOW, and ARG is checked before the counter. -/
theorem test_inj_faults :
    presents (exec (.inj 0) fullPass) 0 false true 4 = true ∧ presents (exec (.inj 2) fullPass) 0 false true 1 = true := by
  decide

/-- 95_test_vectors.md section 5, the reserved rows. -/
theorem test_reserved_raises :
    presents (exec (.reservedOp1 127) (fresh 16 32)) 0 false true 3 = true
      ∧ presents (exec (.reservedOp6 0) (fresh 16 32)) 0 false true 3 = true
      ∧ presents (exec (.reservedOp7 127) (fresh 16 32)) 0 false true 3 = true := by decide

/-- 95_test_vectors.md section 5: while faulted a reserved OP reports the first code. -/
theorem test_reserved_refused_while_faulted :
    presents (exec (.reservedOp7 0) faulted) 0 false true 1 = true
      ∧ nextPasses (exec (.reservedOp7 0) faulted) (fun t => elements t == [0, 0, 0, 0, 0, 0, 1, 1]) = true := by decide

/-! Steps. -/

/-- Program 5, step 8: reset clears the fault, whatever command comes with it (U35). -/
theorem test_step_reset_wins :
    nextPasses (step (issuing true 0x00B faulted)) (fun t => elements t == [0, 0, 0, 0, 0, 0, 0, 0] && t.ham.out.isNone)
      = true := by decide

/-- Program 5, step 4: a legal command is refused while faulted. -/
theorem test_step_refused_while_faulted : presents (step (issuing false 0x00B faulted)) 0 false true 1 = true := by decide

/-- A word placed in the reset state runs in the first step. -/
theorem test_withFetchWord_runs : presents (step (State.reset.withFetchWord 10 0x00B)) 0x33 false false 0 = true := by
  decide

/-- 95_test_vectors.md section 4.2: the whole flip function for W = 1. -/
theorem test_flips_w1 :
    ([0, 1, 2].map fun t => [0, 1].map fun u =>
      flips (p := ⟨1, 3⟩) { Ham74.reset ⟨1, 3⟩ with rate := BitVec.ofNat 2 t, rndIn := BitVec.ofNat 1 u })
      = [[false, false], [true, false], [true, true]] := by decide

/-! The host. -/

/-- 95_test_vectors.md section 6. -/
theorem test_bits_to_int :
    bitsToInt [] = 0 ∧ bitsToInt [true, false, true, true] = 11
      ∧ bitsToInt [false, true, true, false, false, true, true] = 51 := by decide

/-- 95_test_vectors.md section 6. -/
theorem test_int_to_bits :
    intToBits 11 4 = .ok [true, false, true, true] ∧ intToBits 16 4 = .error .domainError
      ∧ intToBits 2 1 = .error .domainError ∧ intToBits 0 0 = .error .zeroWidth := by
  exact ⟨rfl, rfl, rfl, rfl⟩

/-- 30_encoding.md rule R63, the line `INJ 1, 0x1FF ; c`. -/
theorem test_readLine_inj :
    readLine ⟨16, 32⟩ ['I', 'N', 'J', ' ', '1', ',', ' ', '0', 'x', '1', 'F', 'F', ' ', ';', ' ', 'c']
      = .ok [.inj 1 0x1FF] := by rfl

/-- 30_encoding.md rules R63 and R64: an operand out of range, and a macro. -/
theorem test_readLine_others :
    readLine ⟨16, 32⟩ ['E', 'N', 'C', ' ', '1', '6'] = .error .operandOutOfRange
      ∧ readLine ⟨16, 32⟩ ['E', 'N', 'C', 'B', 'Y', 'T', 'E', ' ', '0', 'x', 'B', '7'] = .ok [.enc 0xB, .enc 7] := by
  exact ⟨rfl, rfl⟩

/-- 95_test_vectors.md section 4.5: two flips in a partial block of two bits are counted. -/
theorem test_corruptRef_partial_block :
    corruptRef (List.replicate 9 false) 1 [1, 1, 1, 1, 1, 1, 1, 0, 0]
      = ⟨[false, false, false, false, false, false, false, true, true], 9, 2, 1⟩ := by decide

/-- 70_reset_and_hazards.md rule R179. -/
theorem test_maxPayloadBytes : maxPayloadBytes ⟨16, 32⟩ = 306783378 := by decide

/-! For every statement with hypotheses, a case that meets them, at the bounds of its clauses. -/

theorem witness_EncReturnsTheCodeword :
    faulted.ham.fault = true ∧ midBlock.ham.fault = false ∧ 16 ≤ (16 : BitVec 7).toNat ∧ (15 : BitVec 7).toNat < 16 := by
  decide

theorem witness_MapperFlipsThePositionNamed : (1 : BitVec 3) ≠ 0#3 ∧ (7 : BitVec 3) ≠ 0#3 := by decide

theorem witness_EncoderLaws :
    (0 : Symbol) ≠ 1 ∧ encodeSymbol 5 = encodeSymbol 5 ∧ syndromeOf 0x33 = 0#3 := by decide

theorem witness_DecnReturnsTheDataBits : faulted.ham.fault = true ∧ midBlock.ham.fault = false := by decide

theorem witness_DeccCorrectsAndReturnsTheDataBits : faulted.ham.fault = true ∧ midBlock.ham.fault = false := by decide

theorem witness_WascExactlyForDeccWithSyndrome :
    midBlock.ham.fault = false ∧ syndromeOf 0x23 ≠ 0#3 ∧ syndromeOf 0x33 = 0#3 := by decide

theorem witness_SingleFlipIsCorrected :
    midBlock.ham.fault = false ∧ 1 ≤ 1 ∧ 1 ≤ 7 ∧ (7 : Nat) ≤ 7 := by decide

theorem witness_CleanCodewordsRoundTrip : midBlock.ham.fault = false := by decide

theorem witness_DoubleFlipsAreMiscorrected :
    midBlock.ham.fault = false ∧ 1 ≤ 1 ∧ 1 ≤ 7 ∧ (7 : Nat) ≤ 7 ∧ (1 : Nat) ≠ 7
      ∧ ¬(1 ∈ [3, 5, 6, 7] ∨ 2 ∈ [3, 5, 6, 7]) := by decide

/-- The lowest three positions cancel, the highest three do not. -/
theorem witness_TripleFlipsAreNeverCorrected :
    midBlock.ham.fault = false ∧ (1 ≤ 1 ∧ 1 < 2 ∧ 2 < 3 ∧ 3 ≤ 7 ∧ 1 ^^^ 2 ^^^ 3 = 0)
      ∧ (1 ≤ 5 ∧ 5 < 6 ∧ 6 < 7 ∧ 7 ≤ 7 ∧ 5 ^^^ 6 ^^^ 7 ≠ 0) := by decide

theorem witness_DeccAnswersTheNearestCodeword :
    midBlock.ham.fault = false ∧ weight ((0x23 : Codeword) ^^^ encodeSymbol 0xB) ≤ 1 := by decide

theorem witness_DecodersAgreeOnParitySyndromes :
    (decodeReceived true 0x23).1 ≠ (decodeReceived false 0x23).1 := by decide

theorem witness_ChbeginStartsAPass :
    faulted.ham.fault = true ∧ midBlock.ham.fault = false ∧ (1 : BitVec 7) ≠ 0#7
      ∧ 2 ^ 16 < (rateOffered 0x10001).ham.rateIn.toNat ∧ (rateOffered 0x10000).ham.rateIn.toNat ≤ 2 ^ 16 := by decide

theorem witness_InjPassesOneBit :
    faulted.ham.fault = true ∧ fullPass.ham.fault = false ∧ lastBit.ham.fault = false
      ∧ 2 ≤ (2 : BitVec 7).toNat ∧ (1 : BitVec 7).toNat < 2
      ∧ fullPass.ham.totalBits.toNat = 2 ^ 3 - 1 ∧ lastBit.ham.totalBits.toNat ≠ 2 ^ 3 - 1 := by decide

theorem witness_RateCountsTheDrawsThatFlip :
    (rateSet 0x10000).ham.rate.toNat ≤ 2 ^ 16 ∧ flips (rateSet 0x10000).ham = true ∧ flips (rateSet 0).ham = false := by
  decide

theorem witness_RateEndpointsAreExact :
    (rateSet 0).ham.fault = false ∧ (1 : BitVec 7).toNat < 2 ∧ (rateSet 0).ham.totalBits.toNat ≠ 2 ^ 32 - 1
      ∧ (rateSet 0).ham.rate.toNat = 0 ∧ (rateSet 0x10000).ham.rate.toNat = 2 ^ 16
      ∧ (rateSet 0x10000).ham.fault = false ∧ (rateSet 0x10000).ham.totalBits.toNat ≠ 2 ^ 32 - 1 := by decide

/-- A step that counts a bit, one that clears the counts, and one that leaves them. -/
theorem witness_OnlyInjChbeginAndResetChangeTheCounts :
    nextPasses (step (issuing false 0x280 midBlock)) (fun t => t.ham.totalBits.toNat == 11) = true
      ∧ nextPasses (step (issuing false 0x200 midBlock)) (fun t => t.ham.totalBits.toNat == 0) = true
      ∧ nextPasses (step (issuing false 0x00B midBlock)) (fun t => t.ham.totalBits.toNat == 10) = true := by decide

/-- An instruction of each kind does write what it may. -/
theorem witness_WritersOfEachStateElement :
    nextPasses (exec (.chbegin 0) midBlock) (fun t => t.ham.rate.toNat != 0x2000) = true
      ∧ nextPasses (exec (.inj 0) midBlock) (fun t => t.ham.pos.toNat != 3) = true
      ∧ nextPasses (exec (.enc 16) midBlock) (fun t => t.ham.fault) = true := by decide

theorem witness_CodecOperationsAreIdempotent :
    (Instr.enc 15).wellFormed = true ∧ (Instr.decn 127).wellFormed = true ∧ (Instr.decc 127).wellFormed = true := by decide

theorem witness_CodecOperationsCommute :
    (Instr.enc 15).wellFormed = true ∧ midBlock.ham.fault = false
      ∧ nextPasses (exec (.inj 1) midBlock) (fun t => !t.ham.fault) = true := by decide

theorem witness_SidePortsAreSampledByOneOperation :
    (∀ arg, Instr.inj 1 ≠ .chbegin arg) ∧ (∀ arg, Instr.chbegin 0 ≠ .inj arg) :=
  ⟨fun _ h => Instr.noConfusion h, fun _ h => Instr.noConfusion h⟩

/-- A pass at its greatest length at CNTW = 3, at rate 1 and at rate 0. -/
theorem witness_PassEqualsTheReferenceLoop :
    (fresh 16 3).Ready ∧ (fresh 16 3).ham.fault = false ∧ 2 ^ 16 ≤ 2 ^ 16 ∧ 0 ≤ 2 ^ 16
      ∧ (List.replicate 7 0xFFFF).length = (List.replicate 7 true).length
      ∧ (List.replicate 7 true).length ≤ 2 ^ 3 - 1 ∧ ∀ u ∈ List.replicate 7 0xFFFF, u < 2 ^ 16 := by decide

/-- The same at the empty pass. -/
theorem witness_LawsOfAPass :
    (fresh 16 3).Ready ∧ (fresh 16 3).ham.fault = false ∧ 2 ^ 16 ≤ 2 ^ 16 ∧ 0 ≤ 2 ^ 16
      ∧ ([] : List Nat).length = ([] : List Bool).length ∧ ([] : List Bool).length ≤ 2 ^ 3 - 1
      ∧ (∀ u ∈ ([] : List Nat), u < 2 ^ 16)
      ∧ (List.replicate 7 0xFFFF).length = (List.replicate 7 true).length
      ∧ (List.replicate 7 true).length ≤ 2 ^ 3 - 1 ∧ ∀ u ∈ List.replicate 7 0xFFFF, u < 2 ^ 16 := by decide

theorem witness_ReservedOpRaisesReserved : midBlock.ham.fault = false := by decide

theorem witness_RaisingWritesOnlyTheFault :
    midBlock.ham.fault = false ∧ nextPasses (exec (.enc 16) midBlock) (fun t => t.ham.fault) = true := by decide

theorem witness_EveryOperationIsRefusedWhileFaulted : faulted.ham.fault = true := by decide

theorem witness_CauseCodesInCheckOrder :
    faulted.ham.fault = true ∧ fullPass.ham.fault = false ∧ fullPass.ham.totalBits.toNat = 2 ^ 3 - 1
      ∧ 2 ^ 16 < (rateOffered 0x10001).ham.rateIn.toNat ∧ (rateOffered 0x10001).ham.fault = false := by decide

theorem witness_ErrReportsTheFault : presents (exec (.enc 16) midBlock) 0 false true 1 = true := by decide

/-- An INJ into a pass with room for one more bit, and CHBEGIN at rate 1. -/
theorem witness_CheckedHostNeverSeesAFault :
    lastBit.Ready ∧ lastBit.ham.fault = false ∧ lastBit.ham.totalBits.toNat ≠ 2 ^ 3 - 1
      ∧ safeIssue (p := ⟨16, 3⟩) ⟨false, 0x281, 0, 0⟩ = true
      ∧ safeIssue (p := ⟨16, 3⟩) ⟨false, 0x200, 0x10000, 0⟩ = true := by decide

theorem witness_OnlyResetClearsTheFault :
    faulted.ham.fault = true ∧ nextPasses (step (issuing true 0 faulted)) (fun t => !t.ham.fault) = true
      ∧ nextPasses (step (issuing false 0 faulted)) (fun t => t.ham.fault) = true := by decide

theorem witness_ResetWinsOverAnyCommand :
    faulted.params.legal = true ∧ (issuing true 0x00B faulted).ham.pending = [⟨true, 0x00B, 0, 0⟩]
      ∧ (issuing true 0x00B faulted).ham.fault = true
      ∧ nextPasses (step (issuing true 0x00B faulted)) (fun t => !t.ham.fault) = true := by decide

theorem witness_StepRunsTheDecodedInstruction :
    State.reset.params.legal = true ∧ State.reset.ham.resetSeen = true
      ∧ (issuing false 0x00B State.reset).ham.pending = [⟨false, 0x00B, 0, 0⟩] := by decide

theorem witness_PlacedWordRunsNext : State.reset.Ready ∧ decodeTableWord 10 0x3FF = some (.reservedOp7 127) := by decide

theorem witness_NothingIssuedNothingHappens : State.reset.params.legal = true ∧ State.reset.ham.pending = [] := by decide

/-- Each constraint of 00_scope.md rule R6 broken by one, a command before the first reset, and a machine that is ready. -/
theorem witness_StepStopsOnlyOutsideTheSpec :
    (fresh 0 3).params.legal = false ∧ (fresh 1 2).params.legal = false ∧ (fresh 1 3).params.legal = true
      ∧ (mapHam (issuing false 0x00B (fresh 1 3)) fun h => { h with resetSeen := false }).ham.pending
          = [⟨false, 0x00B, 0, 0⟩]
      ∧ (fresh 1 3).ham.pending = []
      ∧ (issuing true 0x00B (fresh 1 3)).ham.pending = [⟨true, 0x00B, 0, 0⟩]
      ∧ (fresh 1 3).Ready := by decide

theorem witness_StepKeepsSoundness :
    midBlock.Sound ∧ nextPasses (step (issuing false 0x281 midBlock)) (fun _ => true) = true := by decide

theorem witness_IntToBitsRejectsWhatDoesNotFit : 0 < 4 ∧ 2 ^ 4 ≤ 16 ∧ 15 < 2 ^ 4 ∧ 1 ≤ 1 ∧ 4 ≤ 4 := by decide

theorem witness_BitConversionsAreInverse : 0 < 4 ∧ 15 < 2 ^ 4 ∧ 0 < 2 ^ 4 ∧ [true] ≠ [] := by decide

theorem witness_VectorsCarrySequences : 0 < 7 ∧ 1 ≤ 1 ∧ 1 ≤ 7 ∧ (7 : Nat) ≤ 7 := by decide

theorem witness_AssemblerMakesTheListedWords :
    15 ≤ 15 ∧ 15 < 16 ∧ 127 ≤ 127 ∧ 127 < 128 ∧ 2 ^ 16 ≤ 2 ^ 16 ∧ 2 ^ 16 < 2 ^ 16 + 1 ∧ 1 ≤ 1 ∧ 2 ^ 16 - 1 < 2 ^ 16
      ∧ (1 < 2 ∨ 2 ^ 16 ≤ 0) ∧ (1 < 1 ∨ 2 ^ 16 ≤ 2 ^ 16) := by decide

theorem witness_ByteMacrosRoundTrip : State.reset.Ready ∧ State.reset.ham.fault = false := by decide

theorem witness_StreamLengthIsChecked :
    (List.replicate 13 false).length % 14 ≠ 0 ∧ (List.replicate 7 false).length % 14 ≠ 0 := by decide

/-- The hypotheses the four statements about the pipeline share, at one byte, at the empty payload and at both ends of the
rate. -/
theorem witness_PipelineRunsToItsEnd :
    State.reset.Ready ∧ State.reset.ham.fault = false ∧ 2 ^ 16 ≤ 2 ^ State.reset.params.w ∧ 0 ≤ 2 ^ State.reset.params.w
      ∧ [0xB7#8].length ≤ maxPayloadBytes State.reset.params
      ∧ 14 * [0xB7#8].length ≤ (List.replicate 14 0xFFFF).length
      ∧ (∀ u ∈ List.replicate 14 0xFFFF, u < 2 ^ State.reset.params.w)
      ∧ ([] : List (BitVec 8)).length ≤ maxPayloadBytes State.reset.params
      ∧ 14 * ([] : List (BitVec 8)).length ≤ ([] : List Nat).length := by decide

theorem witness_PipelineRoundTripWithoutNoise :
    State.reset.Ready ∧ State.reset.ham.fault = false ∧ [0xB7#8].length ≤ maxPayloadBytes State.reset.params
      ∧ 14 * [0xB7#8].length ≤ (List.replicate 14 0).length
      ∧ ∀ u ∈ List.replicate 14 0, u < 2 ^ State.reset.params.w := by decide

theorem witness_PipelineCorrectionBound :
    State.reset.Ready ∧ State.reset.ham.fault = false ∧ 1 ≤ 2 ^ State.reset.params.w
      ∧ [0xB7#8].length ≤ maxPayloadBytes State.reset.params
      ∧ 14 * [0xB7#8].length ≤ (0 :: List.replicate 13 1).length
      ∧ (∀ u ∈ 0 :: List.replicate 13 1, u < 2 ^ State.reset.params.w) ∧ 0 < [0xB7#8].length := by decide

theorem witness_WrongBytesAreBounded :
    State.reset.Ready ∧ State.reset.ham.fault = false ∧ 1 ≤ 2 ^ State.reset.params.w
      ∧ [0xB7#8].length ≤ maxPayloadBytes State.reset.params
      ∧ 14 * [0xB7#8].length ≤ (0 :: 0 :: List.replicate 12 1).length
      ∧ ∀ u ∈ 0 :: 0 :: List.replicate 12 1, u < 2 ^ State.reset.params.w := by decide

/-- Whether a call met an `ERR`. -/
def metError (r : Except HostError PipelineResult) : Bool :=
  match r with
  | .error e => decide (e = .deviceError)
  | .ok _ => false

/-- 95_test_vectors.md program 5, steps 4 and 8: the first ENC of a run on a faulted HAM74 is refused, and the host's reset
clears the fault. -/
theorem test_host_resets_after_err :
    metError (callPipeline ⟨[0xB7], 0, List.replicate 14 0⟩ faulted).1 = true
      ∧ elements (callPipeline ⟨[0xB7], 0, List.replicate 14 0⟩ faulted).2 = [0, 0, 0, 0, 0, 0, 0, 0] := by decide

/-- A call that meets an `ERR` and calls on an unfaulted machine. -/
theorem witness_HostResetsBeforeTheNextRun :
    faulted.Ready ∧ faulted.ham.fault = true ∧ 2 ^ 16 ≤ 2 ^ faulted.params.w
      ∧ metError (callPipeline ⟨[], 2 ^ 16, []⟩ faulted).1 = true
      ∧ State.reset.Ready ∧ State.reset.ham.fault = false := by decide

end Sys2Proof.Tests
end

/-! PROOF. The scope of a step (00_scope.md): an equation of `step` for each way it can go beside `step_of_command`, and the
two obligations of that family. -/

namespace Sys2Proof.Machine

section StepEquations

variable {p : Params} {h : Ham74 p} {i : Issue p.w} {rest : List (Issue p.w)}

/-- Parameters that break 00_scope.md rule R6 stop every step (log 6). -/
theorem step_of_illegal (hl : p.legal = false) : step ⟨p, h⟩ = .fault .illegalParams := by
  simp [step, hl]

/-- With nothing pending, a step idles (log 3). -/
theorem step_of_nothing_pending (hl : p.legal = true) (hp : h.pending = []) : step ⟨p, h⟩ = .next ⟨p, idle h⟩ := by
  simp [step, hl, hp]

/-- `RST` resets, whatever command comes with it (70_reset_and_hazards.md rule R170). -/
theorem step_of_rst (hl : p.legal = true) (hp : h.pending = i :: rest) (hi : i.rst = true) :
    step ⟨p, h⟩ = .next ⟨p, applyReset (latch i rest h)⟩ := by
  simp [step, hl, hp, runIssue, hi]

/-- A command before the first reset is refused by name (log 5). -/
theorem step_of_command_before_reset (hl : p.legal = true) (hs : h.resetSeen = false) (hp : h.pending = i :: rest)
    (hi : i.rst = false) : step ⟨p, h⟩ = .refused .beforeFirstReset := by
  simp [step, hl, hp, runIssue, hi, hs]

/-- A step of a ready machine, whatever is pending, answers a machine that is ready and has the same parameters. -/
theorem step_of_ready (hr : State.Ready ⟨p, h⟩) : ∃ g : Ham74 p, step ⟨p, h⟩ = .next ⟨p, g⟩ ∧ State.Ready ⟨p, g⟩ := by
  obtain ⟨hl, hs⟩ := hr
  cases hp : h.pending with
  | nil => exact ⟨idle h, step_of_nothing_pending hl hp, hl, hs⟩
  | cons i rest =>
    cases hi : i.rst with
    | true => exact ⟨applyReset (latch i rest h), step_of_rst hl hp hi, hl, applyReset_resetSeen _⟩
    | false =>
      have hcmd : step ⟨p, h⟩ = .next ⟨p, hamOp (decode i.cmd) (latch i rest h)⟩ :=
        (step_of_command ⟨hl, hs⟩ hp hi).trans (exec_eq_next _ _)
      exact ⟨_, hcmd, hl, (hamOp_resetSeen _ _).trans hs⟩

end StepEquations

/-- Settles O46: one equation of `step` for each way it can go, and `step_of_ready` for a machine that is ready. -/
theorem stepStopsOnlyOutsideTheSpec : Obligations.StepStopsOnlyOutsideTheSpec := by
  unfold Obligations.StepStopsOnlyOutsideTheSpec
  rintro ⟨p, h⟩
  refine ⟨step_of_illegal, fun _ _ => step_of_command_before_reset, fun hl hp => ?idle, fun i rest hl hp hi => ?reset,
    fun hr => ?ready⟩
  case idle => exact ⟨_, step_of_nothing_pending hl hp, idle_resetSeen h, rfl⟩
  case reset => exact ⟨_, step_of_rst hl hp hi, ⟨hl, applyReset_resetSeen _⟩, rfl⟩
  case ready =>
    obtain ⟨g, hstep, hg⟩ := step_of_ready hr
    exact ⟨_, hstep, hg, rfl⟩

/-- Settles O43: in a machine that has been reset, `step_of_command`, whose `latch` is the state with the side ports as
issued. -/
theorem stepRunsTheDecodedInstruction : Obligations.StepRunsTheDecodedInstruction := by
  unfold Obligations.StepRunsTheDecodedInstruction
  intro p h i rest hl hs hp hi
  exact step_of_command ⟨hl, hs⟩ hp hi

end Sys2Proof.Machine

/-! PROOF. The state (10_state.md): the rules of what an operation leaves unchanged, what it reports and what it samples,
soundness under each shared operation, and the eight obligations of that family. -/

namespace Sys2Proof.Machine

section Frame

variable {p : Params}

/-- The operation's own checks, the first that applies (60_exceptions.md rule R157). -/
def checkOf (i : Instr) (h : Ham74 p) : Option Cause :=
  match i with
  | .enc arg => encCheck arg
  | .decn _ | .decc _ => none
  | .chbegin arg => chbeginCheck arg h
  | .inj arg => injCheck arg h
  | .reservedOp1 _ | .reservedOp6 _ | .reservedOp7 _ => some .reserved

/-- What the operation does when no check applies. -/
def effectOf (i : Instr) (h : Ham74 p) : Ham74 p :=
  match i with
  | .enc arg => present (resultOutputs (encodeSymbol (symbolOf arg)) false) h
  | .decn arg => present (decodeOutputs false arg) h
  | .decc arg => present (decodeOutputs true arg) h
  | .chbegin _ => present (resultOutputs 0 false) (beginPass h)
  | .inj arg => present (injOutputs (streamBitOf arg) (flips h)) (countBit (flips h) h)
  | .reservedOp1 _ | .reservedOp6 _ | .reservedOp7 _ => h

/-- Every instruction is its check and its effect in the fault wrapper. -/
theorem hamOp_eq_operate (i : Instr) (h : Ham74 p) : hamOp i h = operate (checkOf i) (effectOf i) h := by
  cases i <;> rfl

/-- A wrapped operation whose effect writes no state element changes at most `FAULT`, `FCODE` and the outputs
(60_exceptions.md rule R154). -/
theorem operate_sameButFault {check : Ham74 p → Option Cause} {effect : Ham74 p → Ham74 p} {h : Ham74 p}
    (he : sameButFault (effect h) h) : sameButFault (operate check effect h) h := by
  rcases operate_cases check effect h with ⟨-, hop⟩ | ⟨-, c, -, hop⟩ | ⟨-, -, hop⟩ <;> rw [hop]
  · rfl
  · rfl
  · exact he

/-- The channel's operations alone write more than a fault (10_state.md rule R22). -/
theorem hamOp_sameButFault {i : Instr} (hc : ∀ arg, i ≠ .chbegin arg) (hi : ∀ arg, i ≠ .inj arg) (h : Ham74 p) :
    sameButFault (hamOp i h) h := by
  rw [hamOp_eq_operate]
  refine operate_sameButFault ?_
  cases i with
  | enc | decn | decc | reservedOp1 | reservedOp6 | reservedOp7 => rfl
  | chbegin arg => exact absurd rfl (hc arg)
  | inj arg => exact absurd rfl (hi arg)

/-- INJ does not write `RATE` (43_channel.md rule R114). -/
theorem hamOp_inj_rate (arg : Arg) (h : Ham74 p) : (hamOp (.inj arg) h).rate = h.rate := by
  rw [hamOp_eq_operate]
  rcases operate_cases (checkOf (.inj arg)) (effectOf (.inj arg)) h with ⟨-, hop⟩ | ⟨-, c, -, hop⟩ | ⟨-, -, hop⟩ <;>
    rw [hop] <;> rfl

/-- Only CHBEGIN writes `RATE` (10_state.md rule R23). -/
theorem hamOp_rate {i : Instr} (hc : ∀ arg, i ≠ .chbegin arg) (h : Ham74 p) : (hamOp i h).rate = h.rate := by
  by_cases hi : ∃ arg, i = .inj arg
  · obtain ⟨arg, rfl⟩ := hi
    exact hamOp_inj_rate arg h
  · rw [hamOp_sameButFault hc (not_exists.mp hi) h]

/-- An instruction that changes `FAULT` or `FCODE` raises a DomainError in an unfaulted machine (60_exceptions.md
rules R154, R155). -/
theorem hamOp_raises_of_fault_ne {i : Instr} {h : Ham74 p}
    (hne : (hamOp i h).fault ≠ h.fault ∨ (hamOp i h).fcode ≠ h.fcode) :
    h.fault = false ∧ ∃ c, hamOp i h = raiseDomainError c h := by
  rcases hamOp_cases i h with ⟨-, hop⟩ | hraise | ⟨-, o, hop⟩ | ⟨-, -, o, hop⟩ | ⟨-, -, o, hop⟩
  case inr.inl => exact hraise
  all_goals simp [hop] at hne

/-- No instruction writes a port value or an issue to come: they are the host's (10_state.md rules R32, R36). -/
theorem hamOp_ports (i : Instr) (h : Ham74 p) :
    (hamOp i h).rateIn = h.rateIn ∧ (hamOp i h).rndIn = h.rndIn ∧ (hamOp i h).pending = h.pending := by
  rcases hamOp_cases i h with ⟨-, hop⟩ | ⟨-, c, hop⟩ | ⟨-, o, hop⟩ | ⟨-, -, o, hop⟩ | ⟨-, -, o, hop⟩ <;> simp [hop]

/-- Every instruction is refused by a faulted machine (60_exceptions.md rule R155). -/
theorem hamOp_of_fault (i : Instr) {h : Ham74 p} (hf : h.fault = true) : hamOp i h = refuseWhileFaulted h := by
  rcases hamOp_cases i h with ⟨-, hop⟩ | ⟨hf', -⟩ | ⟨hf', -⟩ | ⟨hf', -⟩ | ⟨hf', -⟩
  case inl => exact hop
  all_goals simp [hf] at hf'

end Frame

section SidePorts

variable {p : Params} {r : BitVec (p.w + 1)} {u : BitVec p.w} {h : Ham74 p}

/-- The machine with other values on the side ports (10_state.md rule R32). -/
def withPorts (r : BitVec (p.w + 1)) (u : BitVec p.w) (h : Ham74 p) : Ham74 p := { h with rateIn := r, rndIn := u }

/-- A wrapped operation does not see the side ports if neither its check nor its effect does. -/
theorem operate_withPorts {check : Ham74 p → Option Cause} {effect : Ham74 p → Ham74 p}
    (hcheck : check (withPorts r u h) = check h) (heffect : effect (withPorts r u h) = withPorts r u (effect h)) :
    operate check effect (withPorts r u h) = withPorts r u (operate check effect h) := by
  rcases operate_cases check effect h with ⟨hf, hop⟩ | ⟨hf, c, hc, hop⟩ | ⟨hf, hc, hop⟩ <;> rw [hop]
  · exact operate_of_fault hf
  · exact operate_of_check hf (hcheck.trans hc)
  · rw [operate_of_pass (h := withPorts r u h) hf (hcheck.trans hc), heffect]

/-- An instruction does not see the side port values that it does not sample: CHBEGIN alone samples `RATE_IN`, INJ alone
`RND_IN` (10_state.md rule R32). -/
theorem hamOp_withPorts {i : Instr} (hr : ∀ arg, i = .chbegin arg → r = h.rateIn)
    (hu : ∀ arg, i = .inj arg → u = h.rndIn) : hamOp i (withPorts r u h) = withPorts r u (hamOp i h) := by
  obtain ⟨hcheck, heffect⟩ : checkOf i (withPorts r u h) = checkOf i h
      ∧ effectOf i (withPorts r u h) = withPorts r u (effectOf i h) := by
    cases i with
    | enc | decn | decc | reservedOp1 | reservedOp6 | reservedOp7 => exact ⟨rfl, rfl⟩
    | chbegin arg =>
      obtain rfl := hr arg rfl
      exact ⟨rfl, rfl⟩
    | inj arg =>
      obtain rfl := hu arg rfl
      exact ⟨rfl, rfl⟩
  rw [hamOp_eq_operate, hamOp_eq_operate]
  exact operate_withPorts hcheck heffect

end SidePorts

section Reports

variable {p : Params}

/-- The report outputs of 10_state.md rule R33 say what the machine's `FAULT` and `FCODE` are, and an error has no
result. -/
def Reports (g : Ham74 p) : Prop :=
  ∃ o : Outputs, g.out = some o ∧ o.err = g.fault ∧ o.ecode = (if g.fault then g.fcode else 0)
    ∧ (o.err = true → o.res = 0 ∧ o.wasc = false)

/-- A faulted machine that presents its code reports it. -/
theorem reports_errorOutputs {g : Ham74 p} (hf : g.fault = true) : Reports (present (errorOutputs g.fcode) g) :=
  ⟨_, rfl, hf.symm, by simp [errorOutputs, hf], fun _ => ⟨rfl, rfl⟩⟩

/-- An unfaulted machine that presents a result reports no fault. -/
theorem reports_resultOutputs {g : Ham74 p} (hf : g.fault = false) (res : BitVec 7) (wasc : Bool) :
    Reports (present (resultOutputs res wasc) g) :=
  ⟨_, rfl, hf.symm, by simp [resultOutputs, hf], nofun⟩

/-- A wrapped operation reports the fault if its effect does. -/
theorem operate_reports {check : Ham74 p → Option Cause} {effect : Ham74 p → Ham74 p} {h : Ham74 p}
    (he : h.fault = false → check h = none → Reports (effect h)) : Reports (operate check effect h) := by
  rcases operate_cases check effect h with ⟨hf, hop⟩ | ⟨-, c, -, hop⟩ | ⟨hf, hc, hop⟩ <;> rw [hop]
  · exact reports_errorOutputs hf
  · exact reports_errorOutputs (g := { h with fault := true, fcode := causeCode c }) rfl
  · exact he hf hc

/-- Every instruction reports the fault (10_state.md rule R33; 60_exceptions.md rules R154, R155). -/
theorem hamOp_reports (i : Instr) (h : Ham74 p) : Reports (hamOp i h) := by
  rw [hamOp_eq_operate]
  refine operate_reports fun hf hc => ?_
  cases i with
  | enc | decn | decc | chbegin | inj => exact reports_resultOutputs hf _ _
  | reservedOp1 | reservedOp6 | reservedOp7 => cases hc

end Reports

section Soundness

variable {p : Params} {h : Ham74 p}

/-- No cause has code 0, and none has a code above 4 (60_exceptions.md rule R152). -/
theorem causeCode_range (c : Cause) : causeCode c ≠ 0#3 ∧ (causeCode c).toNat ≤ 4 := by
  cases c <;> decide

/-- While the pass is not full, `TOTAL_FLIPS` counts a flip without wrapping (43_channel.md rules R116, R118). -/
theorem countBit_totalFlips_toNat (flip : Bool) (hle : h.totalFlips.toNat ≤ h.totalBits.toNat)
    (hfull : h.totalBits.toNat ≠ 2 ^ p.cntw - 1) :
    (countBit flip h).totalFlips.toNat = h.totalFlips.toNat + flip.toNat := by
  have hlt := h.totalBits.isLt
  cases flip with
  | false => rfl
  | true => exact toNat_add_one_of_not_full _ (by omega)

/-- The second flip of a block counts the block, without wrapping (43_channel.md rules R116, R119). -/
theorem countBit_uncorrBlocks_toNat (flip : Bool) (hle : h.uncorrBlocks.toNat ≤ h.totalBits.toNat)
    (hfull : h.totalBits.toNat ≠ 2 ^ p.cntw - 1) :
    (countBit flip h).uncorrBlocks.toNat
      = if flip.toNat = 1 ∧ h.blkf.toNat = 1 then h.uncorrBlocks.toNat + 1 else h.uncorrBlocks.toNat := by
  have hlt := h.totalBits.isLt
  have hone : h.blkf = 1 ↔ h.blkf.toNat = 1 := BitVec.toNat_inj.symm
  have hsucc : (h.uncorrBlocks + 1).toNat = h.uncorrBlocks.toNat + 1 := toNat_add_one_of_not_full _ (by omega)
  simp only [countBit_uncorrBlocks, Bool.and_eq_true, decide_eq_true_eq, hone, Bool.toNat_eq_one]
  split
  · exact hsucc
  · rfl

/-- `POS` counts modulo 7 (43_channel.md rule R120). -/
theorem countBit_pos_toNat (flip : Bool) (hpos : h.pos.toNat ≤ 6) :
    (countBit flip h).pos.toNat = if h.pos.toNat = 6 then 0 else h.pos.toNat + 1 := by
  have hsix : h.pos = 6 ↔ h.pos.toNat = 6 := BitVec.toNat_inj.symm
  simp only [countBit_pos, hsix]
  split
  · rfl
  · exact toNat_add_one_of_not_full _ (by omega)

/-- `BLKF` counts the flips of the current block (43_channel.md rules R119, R120). -/
theorem countBit_blkf_toNat (flip : Bool) (hle : h.blkf.toNat ≤ h.pos.toNat) (hpos : h.pos.toNat ≤ 6) :
    (countBit flip h).blkf.toNat = if h.pos.toNat = 6 then 0 else h.blkf.toNat + flip.toNat := by
  have hsix : h.pos = 6 ↔ h.pos.toNat = 6 := BitVec.toNat_inj.symm
  simp only [countBit_blkf, hsix]
  split
  · rfl
  · cases flip with
    | false => rfl
    | true => exact toNat_add_one_of_not_full _ (by omega)

/-- The machine after reset is sound (10_state.md rules R30, R35). -/
theorem sound_reset (p : Params) : State.Sound ⟨p, Ham74.reset p⟩ := by
  simp [State.Sound, Ham74.Invariants, Ham74.BlockAccount, Ham74.reset]

/-- A DomainError keeps soundness: `FAULT` and a code other than 0 are written together (60_exceptions.md rule R154). -/
theorem sound_raiseDomainError (c : Cause) (hs : State.Sound ⟨p, h⟩) : State.Sound ⟨p, raiseDomainError c h⟩ := by
  obtain ⟨⟨hmod, hblk, hpos, hflips, hunc, hrate, -⟩, hfew, hmany, -⟩ := hs
  obtain ⟨hne, hle⟩ := causeCode_range c
  exact ⟨⟨hmod, hblk, hpos, hflips, hunc, hrate, by simp [hne]⟩, hfew, hmany, hle⟩

/-- The writes of CHBEGIN at a legal rate keep soundness: the counts are zero (43_channel.md rule R111). -/
theorem sound_beginPass (hr : h.rateIn.toNat ≤ 2 ^ p.w) (hs : State.Sound ⟨p, h⟩) :
    State.Sound ⟨p, beginPass h⟩ := by
  obtain ⟨⟨-, -, -, -, -, -, hfault⟩, -, -, hcode⟩ := hs
  simp [State.Sound, Ham74.Invariants, Ham74.BlockAccount, hr, hfault, hcode]

/-- INJ keeps the invariants of rule R30 while the pass is not full (43_channel.md rules R116, R118 to R120). The bound on
`UNCORR_BLOCKS` is where the account of blocks is needed: a second flip counts a block whose first flip `BLKF` holds. -/
theorem invariants_countBit (flip : Bool) (hfull : h.totalBits.toNat ≠ 2 ^ p.cntw - 1) (hinv : h.Invariants)
    (hacc : h.BlockAccount) : (countBit flip h).Invariants := by
  obtain ⟨hmod, hblk, hpos, hflips, hunc, hrate, hfault⟩ := hinv
  obtain ⟨hfew, -, -⟩ := hacc
  have hflip : flip.toNat ≤ 1 := flip.toNat_le
  have hbits' : (countBit flip h).totalBits.toNat = h.totalBits.toNat + 1 := toNat_add_one_of_not_full _ hfull
  have hflips' := countBit_totalFlips_toNat flip hflips hfull
  have hunc' := countBit_uncorrBlocks_toNat (h := h) flip (by omega) hfull
  have hpos' := countBit_pos_toNat flip hpos
  have hblk' := countBit_blkf_toNat flip hblk hpos
  refine ⟨?pos, ?blkf, ?block, ?flips, ?uncorr, hrate, hfault⟩ <;> split_ifs at hunc' hpos' hblk' <;> omega

/-- INJ keeps the account of blocks: a flip is in the current block or, with the block's last bit, among the completed ones
(43_channel.md rules R119, R120). -/
theorem blockAccount_countBit (flip : Bool) (hfull : h.totalBits.toNat ≠ 2 ^ p.cntw - 1) (hinv : h.Invariants)
    (hacc : h.BlockAccount) : (countBit flip h).BlockAccount := by
  obtain ⟨-, hblk, hpos, hflips, hunc, -, -⟩ := hinv
  obtain ⟨hfew, hmany, hcode⟩ := hacc
  have hflip : flip.toNat ≤ 1 := flip.toNat_le
  have hflips' := countBit_totalFlips_toNat flip hflips hfull
  have hunc' := countBit_uncorrBlocks_toNat (h := h) flip (by omega) hfull
  have hblk' := countBit_blkf_toNat flip hblk hpos
  refine ⟨fun _ => ?few, fun _ => ⟨?counted, ?many⟩, hcode⟩ <;> split_ifs at hunc' hblk' <;> omega

/-- The writes of INJ keep soundness while the pass is not full. -/
theorem sound_countBit (flip : Bool) (hfull : h.totalBits.toNat ≠ 2 ^ p.cntw - 1) (hs : State.Sound ⟨p, h⟩) :
    State.Sound ⟨p, countBit flip h⟩ := by
  obtain ⟨hinv, hacc⟩ := hs
  exact ⟨invariants_countBit flip hfull hinv hacc, blockAccount_countBit flip hfull hinv hacc⟩

/-- Every instruction keeps soundness. -/
theorem sound_hamOp (i : Instr) (hs : State.Sound ⟨p, h⟩) : State.Sound ⟨p, hamOp i h⟩ := by
  rcases hamOp_cases i h with ⟨-, hop⟩ | ⟨-, c, hop⟩ | ⟨-, o, hop⟩ | ⟨-, hr, o, hop⟩ | ⟨-, hfull, o, hop⟩ <;> rw [hop]
  · exact hs
  · exact sound_raiseDomainError c hs
  · exact hs
  · exact sound_beginPass hr hs
  · exact sound_countBit (flips h) hfull hs

end Soundness

/-- Settles O48: a step idles, resets or runs one instruction, and each keeps soundness. -/
theorem stepKeepsSoundness : Obligations.StepKeepsSoundness := by
  unfold Obligations.StepKeepsSoundness
  rintro ⟨p, h⟩ t hs hstep
  rcases step_cases hstep with ⟨-, rfl⟩ | ⟨i, rest, -, -, rfl⟩ | ⟨i, rest, -, -, -, rfl⟩
  · exact hs
  · exact sound_reset p
  · exact sound_hamOp (h := latch i rest h) (decode i.cmd) hs

/-- Settles O28: the frame rules of `hamOp`, one for each clause. -/
theorem writersOfEachStateElement : Obligations.WritersOfEachStateElement := by
  unfold Obligations.WritersOfEachStateElement
  intro p h i
  obtain ⟨hrateIn, hrndIn, hpending⟩ := hamOp_ports i h
  refine ⟨hamOp i h, exec_eq_next i ⟨p, h⟩, fun hne => ?rate, fun hne => ?counts, fun hne => ?fault,
    hamOp_resetSeen i h, hrateIn, hrndIn, hpending⟩
  case rate =>
    by_contra hc
    exact hne (hamOp_rate (not_exists.mp hc) h)
  case counts =>
    by_contra hno
    simp only [not_exists, not_or] at hno
    have hsame := hamOp_sameButFault (fun arg => (hno arg).1) (fun arg => (hno arg).2) h
    rw [hsame] at hne
    simp at hne
  case fault =>
    obtain ⟨hf, c, hop⟩ := hamOp_raises_of_fault_ne hne
    rw [hop]
    exact ⟨hf, rfl, rfl⟩

/-- Settles O31: `hamOp_withPorts` with the one port value changed and the other as it stands. -/
theorem sidePortsAreSampledByOneOperation : Obligations.SidePortsAreSampledByOneOperation := by
  unfold Obligations.SidePortsAreSampledByOneOperation
  intro p h i r u
  obtain ⟨hrateIn, hrndIn, -⟩ := hamOp_ports i h
  refine ⟨hamOp i h, exec_eq_next i ⟨p, h⟩, fun hc => ?rate, fun hi => ?draw⟩
  case rate =>
    have hop : hamOp i { h with rateIn := r } = withPorts r h.rndIn (hamOp i h) :=
      hamOp_withPorts (fun arg he => absurd he (hc arg)) fun _ _ => rfl
    rw [exec_eq_next, mapHam_mk, hop, withPorts, ← hrndIn]
  case draw =>
    have hop : hamOp i { h with rndIn := u } = withPorts h.rateIn u (hamOp i h) :=
      hamOp_withPorts (fun _ _ => rfl) fun arg he => absurd he (hi arg)
    rw [exec_eq_next, mapHam_mk, hop, withPorts, ← hrateIn]

/-- Settles O38: `hamOp_reports`. -/
theorem errReportsTheFault : Obligations.ErrReportsTheFault := by
  unfold Obligations.ErrReportsTheFault
  intro p h i
  obtain ⟨o, hreport⟩ := hamOp_reports i h
  exact ⟨hamOp i h, o, exec_eq_next i ⟨p, h⟩, hreport⟩

/-- Settles O40: without a reset, a step of a faulted machine idles or is refused. -/
theorem onlyResetClearsTheFault : Obligations.OnlyResetClearsTheFault := by
  unfold Obligations.OnlyResetClearsTheFault
  rintro ⟨p, h⟩ t hf hstep
  rcases step_cases hstep with ⟨-, rfl⟩ | ⟨i, rest, hp, hi, -⟩ | ⟨i, rest, -, -, -, rfl⟩
  · exact .inr ⟨hf, rfl⟩
  · exact .inl ⟨i, rest, hp, hi⟩
  · have hop := hamOp_of_fault (h := latch i rest h) (decode i.cmd) hf
    exact .inr (by rw [hop]; exact ⟨hf, rfl⟩)

/-- The word that the table's decoder reads is the command word of its low bits. -/
theorem decode_of_decodeTableWord {nbits w : Nat} {i : Instr} (hd : decodeTableWord nbits w = some i) :
    decode (BitVec.ofNat 10 (w % 2 ^ nbits)) = i := by
  unfold decodeTableWord decodeWord at hd
  by_cases hfits : w % 2 ^ nbits < 1024
  · simpa [hfits] using hd
  · simp [hfits] at hd

/-- Settles O44: the placed word is the next issue, and latching it leaves the state as it stood. -/
theorem placedWordRunsNext : Obligations.PlacedWordRunsNext := by
  unfold Obligations.PlacedWordRunsNext
  rintro ⟨p, h⟩ nbits w i hr hd
  have hstep := step_issueNext (i := issueOfWord ⟨p, h⟩ (BitVec.ofNat 10 (w % 2 ^ nbits))) hr rfl
  have hcmd : decode (issueOfWord ⟨p, h⟩ (BitVec.ofNat 10 (w % 2 ^ nbits))).cmd = i := decode_of_decodeTableWord hd
  rw [hcmd] at hstep
  exact hstep.trans (exec_eq_next i ⟨p, h⟩).symm

/-- At rate 0 no draw flips (43_channel.md rule R117). -/
theorem flips_eq_false_of_rate_zero {p : Params} {h : Ham74 p} (hr : h.rate = 0) : flips h = false := by
  rw [← Bool.not_eq_true, flips_iff, hr]
  simp

/-- Settles O41: each element by its definition, the draws by `flips_eq_false_of_rate_zero`. -/
theorem resetIsAllZeros : Obligations.ResetIsAllZeros := by
  unfold Obligations.ResetIsAllZeros
  exact ⟨⟨Params.suggested, rfl⟩, fun p => ⟨rfl, rfl, rfl, rfl, rfl, rfl, rfl, rfl, rfl,
    fun u => flips_eq_false_of_rate_zero rfl⟩⟩

/-- Settles O47: `sound_reset` at the suggested parameters and at any. -/
theorem resetIsSound : Obligations.ResetIsSound := by
  unfold Obligations.ResetIsSound
  exact ⟨sound_reset Params.suggested, sound_reset⟩

end Sys2Proof.Machine

/-! PROOF. Repeating and reordering operations (20_memory.md section 5): no instruction reads the outputs that stand, a
legal codec operation writes nothing else, and the two obligations of that family. -/

namespace Sys2Proof.Machine

section OutputsAreNotRead

variable {p : Params}

/-- A wrapped operation does not see the outputs that stand if neither its check does nor, where the check passes, its
effect. -/
theorem operate_present {check : Ham74 p → Option Cause} {effect : Ham74 p → Ham74 p} {o : Outputs} {h : Ham74 p}
    (hcheck : check (present o h) = check h) (heffect : check h = none → effect (present o h) = effect h) :
    operate check effect (present o h) = operate check effect h := by
  rcases operate_cases check effect h with ⟨hf, hop⟩ | ⟨hf, c, hc, hop⟩ | ⟨hf, hc, hop⟩ <;> rw [hop]
  · exact operate_of_fault hf
  · exact operate_of_check hf (hcheck.trans hc)
  · exact (operate_of_pass (h := present o h) hf (hcheck.trans hc)).trans (heffect hc)

/-- No instruction reads the outputs of the step before: they hold for that step alone (10_state.md rule R33). -/
theorem hamOp_present (i : Instr) (o : Outputs) (h : Ham74 p) : hamOp i (present o h) = hamOp i h := by
  rw [hamOp_eq_operate, hamOp_eq_operate]
  cases i with
  | enc | decn | decc | chbegin | inj => exact operate_present rfl fun _ => rfl
  | reservedOp1 | reservedOp6 | reservedOp7 => exact operate_present rfl nofun

end OutputsAreNotRead

/-- The check of ENC passes exactly for a Symbol (30_encoding.md rule R60 (a)). -/
theorem encCheck_eq_none_iff (arg : Arg) : encCheck arg = none ↔ arg.toNat < 16 := by
  simp [encCheck, encArgTooLarge_iff]

section LegalCodecOperation

variable {p : Params} {i : Instr} {arg : Arg} (hi : i = .enc arg ∨ i = .decn arg ∨ i = .decc arg)
  (hw : i.wellFormed = true)

include hi hw

/-- In an unfaulted machine a legal codec operation presents outputs that depend on its argument alone, and writes nothing
else (20_memory.md rules R47, R49). -/
theorem hamOp_codec : ∃ o, ∀ h : Ham74 p, h.fault = false → hamOp i h = present o h := by
  rcases hi with rfl | rfl | rfl
  · have hfits : arg.toNat < 16 := of_decide_eq_true hw
    exact ⟨_, fun h hf => (hamOp_eq_operate _ h).trans (operate_of_pass hf ((encCheck_eq_none_iff arg).mpr hfits))⟩
  · exact ⟨_, fun h hf => (hamOp_eq_operate _ h).trans (operate_of_pass hf rfl)⟩
  · exact ⟨_, fun h hf => (hamOp_eq_operate _ h).trans (operate_of_pass hf rfl)⟩

/-- Faulted or not, a legal codec operation writes the outputs alone (20_memory.md rule R47; 60_exceptions.md
rule R155). -/
theorem hamOp_codec_writes_outputs (h : Ham74 p) : ∃ o, hamOp i h = present o h := by
  cases hf : h.fault with
  | true => exact ⟨_, hamOp_of_fault i hf⟩
  | false =>
    obtain ⟨o, ho⟩ := hamOp_codec (p := p) hi hw
    exact ⟨o, ho h hf⟩

end LegalCodecOperation

/-- Settles O29: the operation writes the outputs alone, and the second issue does not read them. -/
theorem codecOperationsAreIdempotent : Obligations.CodecOperationsAreIdempotent := by
  unfold Obligations.CodecOperationsAreIdempotent
  intro p h arg i hi hw
  obtain ⟨o, ho⟩ := hamOp_codec_writes_outputs hi hw h
  have hagain : hamOp i (present o h) = present o h := (hamOp_present i o h).trans ho
  refine ⟨present o h, ?first, rfl, ?second⟩
  case first => rw [exec_eq_next, mapHam_mk, ho]
  case second => rw [exec_eq_next, mapHam_mk, hagain]

/-- Settles O30: `j` does not read the outputs that `i` writes, so it answers the same with or without `i` before it; `i`
after `j` writes the outputs alone, and the same ones if `j` left no fault. -/
theorem codecOperationsCommute : Obligations.CodecOperationsCommute := by
  unfold Obligations.CodecOperationsCommute
  intro p h arg i j hi hw hf
  obtain ⟨o, ho⟩ := hamOp_codec (p := p) hi hw
  obtain ⟨o', ho'⟩ := hamOp_codec_writes_outputs hi hw (hamOp j h)
  have hafter : hamOp j (hamOp i h) = hamOp j h := by rw [ho h hf, hamOp_present]
  refine ⟨hamOp i h, hamOp j (hamOp i h), hamOp j h, hamOp i (hamOp j h), exec_eq_next i _, exec_eq_next j _,
    exec_eq_next j _, exec_eq_next i _, ?results, ?state, fun hc => ?codec⟩
  case results => rw [hafter]
  case state => rw [hafter, ho']; rfl
  case codec => rw [ho h hf, ho _ hc]; rfl

end Sys2Proof.Machine

/-! PROOF. Command words (30_encoding.md): the decoder and the encoder are each other's inverse, what the assembler makes of
operands that fit, a run of operations whose answers are known, the classes of the command words, and the seven obligations
of that family. -/

namespace Sys2Proof.Machine

section CommandWords

/-- A command word is its OP followed by its ARG (30_encoding.md rule R55). -/
theorem append_fields (cmd : CmdWord) : opField cmd ++ argField cmd = cmd := by
  rw [opField, argField, BitVec.extractLsb'_append_extractLsb'_eq_extractLsb' (by decide)]
  simp

/-- The row a word decodes to carries the word's ARG (30_encoding.md rules R55, R56). -/
theorem argOf_decode (cmd : CmdWord) : argOf (decode cmd) = argField cmd := by
  unfold decode
  split <;> rfl

/-- The row a word decodes to is the one its OP selects (30_encoding.md rule R56). -/
theorem opOf_decode (cmd : CmdWord) : opOf (decode cmd) = opField cmd := by
  have hlt := (opField cmd).isLt
  apply BitVec.eq_of_toNat_eq
  unfold decode
  split
  case h_8 =>
    have hseven : (opField cmd).toNat = 7 := by grind
    exact hseven.symm
  all_goals exact Eq.symm ‹_›

/-- Encoding writes back every command word (30_encoding.md rules R55, R56). -/
theorem encode_decode (cmd : CmdWord) : encode (decode cmd) = cmd := by
  rw [encode, opOf_decode, argOf_decode, append_fields]

/-- A number decodes exactly if it is a command word, and as that word (30_encoding.md rule R62). -/
theorem decodeWord_eq_ok_iff {w : Nat} {i : Instr} :
    decodeWord w = .ok i ↔ w < 1024 ∧ decode (BitVec.ofNat 10 w) = i := by
  by_cases hw : w < 1024 <;> simp [decodeWord, hw]

/-- A number too wide for the command port is rejected by name (30_encoding.md rule R62; log 10). -/
theorem decodeWord_of_wide {w : Nat} (hw : 1024 ≤ w) : decodeWord w = .error .widerThanCommandWord :=
  if_neg (Nat.not_lt.mpr hw)

end CommandWords

section Raising

variable {p : Params} {i : Instr} {h : Ham74 p}

/-- In an unfaulted machine, an instruction whose check applies raises that check's DomainError (60_exceptions.md
rules R154, R157). -/
theorem hamOp_of_check {c : Cause} (hf : h.fault = false) (hc : checkOf i h = some c) :
    hamOp i h = raiseDomainError c h :=
  (hamOp_eq_operate i h).trans (operate_of_check hf hc)

/-- In an unfaulted machine, an instruction whose checks pass executes (60_exceptions.md rule R157). -/
theorem hamOp_of_pass (hf : h.fault = false) (hc : checkOf i h = none) : hamOp i h = effectOf i h :=
  (hamOp_eq_operate i h).trans (operate_of_pass hf hc)

end Raising

section Assembling

variable {p : Params} {op : AsmOp}

/-- The values that an operation whose operands fit puts on the side ports fit the ports (30_encoding.md rule R63). -/
theorem asmPorts_lt (hfit : asmOperandsFit p op = true) :
    asmRateIn op < 2 ^ (p.w + 1) ∧ asmRndIn op < 2 ^ p.w := by
  have hpos : 0 < 2 ^ p.w := Nat.two_pow_pos p.w
  have hdouble : 2 ^ (p.w + 1) = 2 * 2 ^ p.w := Nat.pow_succ'
  cases op with
  | enc | decn | decc => simp [asmRateIn, asmRndIn]
  | chbegin t =>
    have ht : t ≤ 2 ^ p.w := of_decide_eq_true hfit
    simp only [asmRateIn, asmRndIn]
    omega
  | inj b u =>
    have hu : u < 2 ^ p.w := of_decide_eq_true (Bool.and_eq_true_iff.mp hfit).2
    simp only [asmRateIn, asmRndIn]
    omega

/-- What the assembler makes of operands that fit: the operation's command word, and its side port values whole
(30_encoding.md rule R63). -/
theorem assemble_of_fit (hfit : asmOperandsFit p op = true) :
    ∃ i, assemble p op = some i ∧ i.rst = false ∧ i.cmd = encode (asmInstr op) ∧ i.rateIn.toNat = asmRateIn op
      ∧ i.rndIn.toNat = asmRndIn op := by
  obtain ⟨hrate, hrnd⟩ := asmPorts_lt hfit
  exact ⟨_, if_pos hfit, rfl, rfl, Nat.mod_eq_of_lt hrate, Nat.mod_eq_of_lt hrnd⟩

/-- What the assembler makes of operands that fit, its command word alone. -/
theorem assemble_word_of_fit (hfit : asmOperandsFit p op = true) :
    ∃ i, assemble p op = some i ∧ i.rst = false ∧ i.cmd = encode (asmInstr op) := by
  obtain ⟨i, hi, hrst, hcmd, -⟩ := assemble_of_fit hfit
  exact ⟨i, hi, hrst, hcmd⟩

/-- The assembler rejects operands that do not fit (30_encoding.md rule R63; log 14). -/
theorem assemble_of_not_fit (hfit : asmOperandsFit p op = false) : assemble p op = none := by
  simp [assemble, hfit]

/-- The word of INJ in the pattern of 30_encoding.md rule R57, nine fixed bits and the stream bit. -/
theorem encode_inj_bit {b : Nat} (hb : b ≤ 1) :
    encode (.inj (BitVec.ofNat 7 b)) = 0b101000000#9 ++ BitVec.ofNat 1 b := by
  interval_cases b <;> rfl

end Assembling

section CodecRuns

variable {p : Params}

/-- The assembler accepts the operation, and every unfaulted machine answers it by presenting `o` and writing nothing
else. -/
structure Answers (p : Params) (op : AsmOp) (o : Outputs) : Prop where
  fits : asmOperandsFit p op = true
  noError : o.err = false
  presents : ∀ h : Ham74 p, h.fault = false → hamOp (asmInstr op) h = present o h

/-- A Symbol survives the way through ARG (30_encoding.md rule R57). -/
theorem symbolOf_ofNat_toNat (s : Symbol) : symbolOf (BitVec.ofNat 7 s.toNat) = s := by
  revert s; decide

/-- ENC of a Symbol answers its Codeword (41_encoder.md rule R80). -/
theorem answers_enc (s : Symbol) : Answers p (.enc s.toNat) (resultOutputs (encodeSymbol s) false) where
  fits := decide_eq_true (Nat.le_of_lt_succ s.isLt)
  noError := rfl
  presents h hf := by
    have hlt : s.toNat < 16 := s.isLt
    have hfits : (BitVec.ofNat 7 s.toNat).toNat < 16 := by
      rw [BitVec.toNat_ofNat]
      omega
    have hpass : checkOf (.enc (BitVec.ofNat 7 s.toNat)) h = none := (encCheck_eq_none_iff _).mpr hfits
    rw [asmInstr, hamOp_of_pass hf hpass, effectOf, symbolOf_ofNat_toNat]

/-- DECC of a word answers the decoder's outputs with correction (42_decoder.md rule R97). -/
theorem answers_decc (c : Codeword) : Answers p (.decc c.toNat) (decodeOutputs true c) where
  fits := decide_eq_true (Nat.le_of_lt_succ c.isLt)
  noError := rfl
  presents h hf := by
    rw [asmInstr, hamOp_of_pass hf rfl, effectOf, BitVec.ofNat_toNat, BitVec.setWidth_eq]

/-- DECN of a word answers the decoder's outputs without correction (42_decoder.md rule R96). -/
theorem answers_decn (c : Codeword) : Answers p (.decn c.toNat) (decodeOutputs false c) where
  fits := decide_eq_true (Nat.le_of_lt_succ c.isLt)
  noError := rfl
  presents h hf := by
    rw [asmInstr, hamOp_of_pass hf rfl, effectOf, BitVec.ofNat_toNat, BitVec.setWidth_eq]

/-- A run of operations that are answered so, from a machine that is ready and unfaulted, collects their outputs and leaves
the machine ready and unfaulted. -/
theorem runOps_of_answers {ops : List AsmOp} {outs : List Outputs} (hans : List.Forall₂ (Answers p) ops outs)
    {h : Ham74 p} (hr : State.Ready ⟨p, h⟩) (hf : h.fault = false) :
    ∃ g : Ham74 p, runOps ops ⟨p, h⟩ = .ok (outs, ⟨p, g⟩) ∧ State.Ready ⟨p, g⟩ ∧ g.fault = false := by
  induction hans generalizing h with
  | nil => exact ⟨h, rfl, hr, hf⟩
  | @cons op o ops outs ho _ ih =>
    obtain ⟨i, hi, -⟩ := assemble_of_fit ho.fits
    have hop := ho.presents (latch i h.pending h) hf
    have hrun := runOps_cons (ops := ops) hr hi (by rw [hop]; rfl) ho.noError
    rw [hop] at hrun
    obtain ⟨g, hrest, hg⟩ := ih (h := present o (latch i h.pending h)) hr hf
    exact ⟨g, by rw [hrun, hrest]; rfl, hg⟩

end CodecRuns

section Bytes

/-- ENCBYTE is ENC of the byte's two nibbles, high first (30_encoding.md rule R64). -/
theorem encByte_toNat (v : BitVec 8) :
    encByte v.toNat = [.enc (v.extractLsb' 4 4).toNat, .enc (v.extractLsb' 0 4).toNat] := by
  have hlt : v.toNat < 256 := v.isLt
  have hhi : (v.extractLsb' 4 4).toNat = v.toNat / 16 := by
    rw [BitVec.extractLsb'_toNat, Nat.shiftRight_eq_div_pow]
    omega
  have hlo : (v.extractLsb' 0 4).toNat = v.toNat % 16 := by
    rw [BitVec.extractLsb'_toNat, Nat.shiftRight_zero]
  rw [encByte, hhi, hlo]

/-- Both decoders answer a Codeword with its Symbol (42_decoder.md rule R100 items 2 and 3). -/
theorem decodeReceived_encodeSymbol (correctErrors : Bool) (s : Symbol) :
    decodeReceived correctErrors (encodeSymbol s) = (s, false) := by
  revert correctErrors s; decide

/-- Two Symbols make the byte of which they are the nibbles (30_encoding.md rule R64). -/
theorem nibbles_append (v : BitVec 8) : v.extractLsb' 4 4 ++ v.extractLsb' 0 4 = v := by
  rw [BitVec.extractLsb'_append_extractLsb'_eq_extractLsb' (by decide)]
  simp

/-- Decoding the Codewords of two Symbols, either way, gives the byte made of the Symbols (30_encoding.md rule R64). -/
theorem decByteResult_encodeSymbol (correctErrors : Bool) (hi lo : Symbol) :
    decByteResult (decodeOutputs correctErrors (encodeSymbol hi)) (decodeOutputs correctErrors (encodeSymbol lo))
      = hi ++ lo := by
  have nibble : ∀ s : Symbol, (s.zeroExtend 7).extractLsb' 0 4 = s := by decide
  simp only [decByteResult, decodeOutputs, resultOutputs, decodeReceived_encodeSymbol, nibble]
  rw [BitVec.append_def, BitVec.shiftLeftZeroExtend_eq, BitVec.setWidth'_eq]

end Bytes

section WordClasses

/-- The code an instruction leaves in `FCODE` of an unfaulted machine (60_exceptions.md rules R152, R154). -/
theorem hamOp_fcode {p : Params} {h : Ham74 p} (hf : h.fault = false) (i : Instr) :
    (hamOp i h).fcode = (checkOf i h).elim h.fcode causeCode := by
  cases hc : checkOf i h with
  | none =>
    rw [hamOp_of_pass hf hc]
    cases i <;> rfl
  | some c => rw [hamOp_of_check hf hc]; rfl

/-- The classes of 30_encoding.md rule R61: the cause code of an instruction where the rate is legal and the pass has room,
0 where it has none. -/
def classCode : Instr → Nat
  | .enc arg => if arg.toNat < 16 then 0 else 1
  | .decn _ | .decc _ => 0
  | .chbegin arg => if arg.toNat = 0 then 0 else 3
  | .inj arg => if arg.toNat < 2 then 0 else 1
  | .reservedOp1 _ | .reservedOp6 _ | .reservedOp7 _ => 3

/-- The check of ENC by the range of its argument (30_encoding.md rule R60 (a)). -/
theorem encCheck_eq (arg : Arg) : encCheck arg = if arg.toNat < 16 then none else some .range := by
  split
  next hfits => exact (encCheck_eq_none_iff arg).mpr hfits
  next hwide => exact if_pos ((encArgTooLarge_iff arg).mpr (Nat.not_lt.mp hwide))

/-- The check of CHBEGIN at a legal rate (30_encoding.md rule R60 (c), (d)). -/
theorem chbeginCheck_of_legal_rate {p : Params} {h : Ham74 p} (hr : h.rateIn.toNat ≤ 2 ^ p.w) (arg : Arg) :
    chbeginCheck arg h = if arg.toNat = 0 then none else some .reserved := by
  split
  next hzero => exact (chbeginCheck_eq_none_iff arg h).mpr ⟨hzero, hr⟩
  next harg => exact if_pos ((chbeginArgPresent_iff arg).mpr harg)

/-- The check of INJ while the pass has room (30_encoding.md rule R60 (b); 43_channel.md rule R116). -/
theorem injCheck_of_not_full {p : Params} {h : Ham74 p} (hn : h.totalBits.toNat ≠ 2 ^ p.cntw - 1) (arg : Arg) :
    injCheck arg h = if arg.toNat < 2 then none else some .range := by
  split
  next hfits => exact (injCheck_eq_none_iff arg h).mpr ⟨hfits, hn⟩
  next hwide => exact if_pos ((injArgTooLarge_iff arg).mpr (Nat.not_lt.mp hwide))

/-- From reset, an instruction leaves the code of its class in `FCODE` (30_encoding.md rule R61). -/
theorem hamOp_reset_fcode (i : Instr) : (hamOp i State.reset.ham).fcode.toNat = classCode i := by
  rw [hamOp_fcode rfl]
  cases i with
  | enc arg => rw [checkOf, encCheck_eq, classCode]; split <;> rfl
  | chbegin arg => rw [checkOf, chbeginCheck_of_legal_rate (by decide), classCode]; split <;> rfl
  | inj arg => rw [checkOf, injCheck_of_not_full (by decide), classCode]; split <;> rfl
  | decn | decc | reservedOp1 | reservedOp6 | reservedOp7 => rfl

/-- A command word's number is `128 * OP + ARG` (30_encoding.md rule R55). -/
theorem word_of_numbers {op k : Nat} (hk : k < 128) :
    BitVec.ofNat 10 (128 * op + k) = BitVec.ofNat 3 op ++ BitVec.ofNat 7 k := by
  apply BitVec.eq_of_toNat_eq
  rw [BitVec.toNat_append, BitVec.toNat_ofNat, BitVec.toNat_ofNat, BitVec.toNat_ofNat, Nat.mod_eq_of_lt hk,
    ← Nat.shiftLeft_add_eq_or_of_lt hk, Nat.shiftLeft_eq]
  omega

/-- The numbers of the words below, at and above one OP (30_encoding.md rule R55). -/
theorem range_words {op : Nat} (hop : op < 8) :
    List.range 1024 = List.range (128 * op) ++ (List.range 128).map (128 * op + ·)
      ++ (List.range (896 - 128 * op)).map (128 * op + 128 + ·) := by
  rw [← List.range_add, ← List.range_add]
  congr 1
  omega

/-- The command words with one OP that pass a test are counted over the 128 values of ARG. -/
theorem length_filter_words {op : Nat} (hop : op < 8) (test : Nat → Bool) :
    ((List.range 1024).filter fun n => decide (n / 128 = op) && test n).length
      = ((List.range 128).filter fun k => test (128 * op + k)).length := by
  have hbelow : (List.range (128 * op)).filter (fun n => decide (n / 128 = op) && test n) = [] := by
    refine List.filter_eq_nil_iff.mpr fun n hn => ?_
    have hlt := List.mem_range.mp hn
    simp [show n / 128 ≠ op by omega]
  have hat : ∀ k ∈ List.range 128, (decide ((128 * op + k) / 128 = op) && test (128 * op + k)) = test (128 * op + k) := by
    intro k hk
    have hlt := List.mem_range.mp hk
    simp [show (128 * op + k) / 128 = op by omega]
  have habove : ∀ k ∈ List.range (896 - 128 * op),
      ¬(decide ((128 * op + 128 + k) / 128 = op) && test (128 * op + 128 + k)) = true := by
    intro k _
    simp [show (128 * op + 128 + k) / 128 ≠ op by omega]
  rw [range_words hop, List.filter_append, List.filter_append, List.filter_map, List.filter_map, hbelow]
  simp only [Function.comp_def, List.filter_congr hat, List.filter_eq_nil_iff.mpr habove, List.nil_append, List.map_nil,
    List.append_nil, List.length_map]

/-- The words of one row are counted by the class of each argument. -/
theorem length_filter_row {op : Nat} (hop : op < 8) {row : Arg → Instr}
    (hrow : ∀ arg, decode (BitVec.ofNat 3 op ++ arg) = row arg) (code : Nat) :
    ((List.range 1024).filter fun n =>
        decide (n / 128 = op) && decide (classCode (decode (BitVec.ofNat 10 n)) = code)).length
      = ((List.range 128).filter fun k => decide (classCode (row (BitVec.ofNat 7 k)) = code)).length := by
  rw [length_filter_words hop]
  congr 1
  refine List.filter_congr fun k hk => ?_
  rw [word_of_numbers (List.mem_range.mp hk), hrow]

end WordClasses

/-- Settles O3: `decode_encode` and `encode_decode`, carried to numbers by `decodeWord_eq_ok_iff`. -/
theorem decodeAndEncodeAgree : Obligations.DecodeAndEncodeAgree := by
  unfold Obligations.DecodeAndEncodeAgree
  refine ⟨fun i => ?decodes, fun w i hd => ?encodes, fun w => decodeWord_of_wide⟩
  case decodes =>
    have hword : BitVec.ofNat 10 (encode i).toNat = encode i := by simp
    exact decodeWord_eq_ok_iff.mpr ⟨(encode i).isLt, by rw [hword, decode_encode]⟩
  case encodes =>
    obtain ⟨hw, rfl⟩ := decodeWord_eq_ok_iff.mp hd
    refine ⟨hw, ?_⟩
    rw [encode_decode, BitVec.toNat_ofNat, Nat.mod_eq_of_lt hw]

/-- Settles O34: the check of a reserved row applies whatever ARG holds. -/
theorem reservedOpRaisesReserved : Obligations.ReservedOpRaisesReserved := by
  unfold Obligations.ReservedOpRaisesReserved
  intro p h arg hf
  have raises : ∀ i : Instr, checkOf i h = some .reserved →
      exec i ⟨p, h⟩ = .next ⟨p, raiseDomainError .reserved h⟩ := fun i hc => by
    rw [exec_eq_next, mapHam_mk, hamOp_of_check hf hc]
  exact ⟨raises _ rfl, raises _ rfl, raises _ rfl, decode_encode (.reservedOp1 arg), decode_encode (.reservedOp6 arg),
    decode_encode (.reservedOp7 arg)⟩

/-- Settles O53: `assemble_of_fit` and `assemble_of_not_fit` at the range of each row. -/
theorem assemblerMakesTheListedWords : Obligations.AssemblerMakesTheListedWords := by
  unfold Obligations.AssemblerMakesTheListedWords
  intro p a b
  refine ⟨fun ha => ?enc, fun ha => ?encWide, fun ha => ?decn, fun ha => ?decc, fun ha => ⟨?decnWide, ?deccWide⟩,
    fun ha => ?chbegin, fun ha => ?chbeginWide, fun ha hb => ?inj, fun hab => ?injWide⟩
  case enc | decn | decc => exact assemble_word_of_fit (decide_eq_true ha)
  case encWide | decnWide | deccWide | chbeginWide => exact assemble_of_not_fit (decide_eq_false (Nat.not_le.mpr ha))
  case chbegin =>
    obtain ⟨i, hi, hrst, hcmd, hrate, -⟩ := assemble_of_fit (p := p) (op := .chbegin a) (decide_eq_true ha)
    have hword : encode (.chbegin 0) = 0b1000000000#10 := by decide
    exact ⟨i, hi, hrst, hcmd.trans hword, hrate⟩
  case inj =>
    have hfit : asmOperandsFit p (.inj a b) = true := by simp [asmOperandsFit, ha, hb]
    obtain ⟨i, hi, hrst, hcmd, -, hrnd⟩ := assemble_of_fit hfit
    exact ⟨i, hi, hrst, hcmd.trans (encode_inj_bit ha), hrnd⟩
  case injWide =>
    refine assemble_of_not_fit ?_
    simp only [asmOperandsFit, Bool.and_eq_false_iff, decide_eq_false_iff_not]
    omega

/-- Settles O54: three runs of answered operations, and the decoders' answers to Codewords. -/
theorem byteMacrosRoundTrip : Obligations.ByteMacrosRoundTrip := by
  unfold Obligations.ByteMacrosRoundTrip
  rintro ⟨p, h⟩ v hr hf
  have henc := List.Forall₂.cons (answers_enc (p := p) (v.extractLsb' 4 4))
    (.cons (answers_enc (v.extractLsb' 0 4)) .nil)
  have hdecc := List.Forall₂.cons (answers_decc (p := p) (encodeSymbol (v.extractLsb' 4 4)))
    (.cons (answers_decc (encodeSymbol (v.extractLsb' 0 4))) .nil)
  have hdecn := List.Forall₂.cons (answers_decn (p := p) (encodeSymbol (v.extractLsb' 4 4)))
    (.cons (answers_decn (encodeSymbol (v.extractLsb' 0 4))) .nil)
  have hbyte := fun correctErrors => (decByteResult_encodeSymbol correctErrors _ _).trans (nibbles_append v)
  obtain ⟨t, hrun, htr, htf⟩ := runOps_of_answers henc hr hf
  obtain ⟨u, hrunc, hur, huf⟩ := runOps_of_answers hdecc htr htf
  obtain ⟨x, hrunn, -⟩ := runOps_of_answers hdecn hur huf
  rw [← encByte_toNat] at hrun
  exact ⟨_, _, _, _, _, _, _, _, _, hrun, rfl, hrunc, hbyte true, hrunn, hbyte false⟩

/-- Settles O1: the decodings stated beside the decoder, and for two reserved rows with ARG 0 `decode_encode`. -/
theorem commandWordsDecodeAsWritten : Obligations.CommandWordsDecodeAsWritten := by
  unfold Obligations.CommandWordsDecodeAsWritten
  exact ⟨decode_word_enc, decode_word_decn, decode_word_decc, decode_word_chbegin, decode_word_inj,
    decode_encode (.reservedOp1 0), decode_encode (.reservedOp6 0), decode_word_reservedOp7⟩

/-- Settles O2: each word is the encoding of the row it decodes to. -/
theorem opAloneSelectsTheRow : Obligations.OpAloneSelectsTheRow := by
  unfold Obligations.OpAloneSelectsTheRow
  intro arg
  exact ⟨decode_encode (.enc arg), decode_encode (.reservedOp1 arg), decode_encode (.decn arg),
    decode_encode (.decc arg), decode_encode (.chbegin arg), decode_encode (.inj arg),
    decode_encode (.reservedOp6 arg), decode_encode (.reservedOp7 arg)⟩

/-- Settles O4: `length_filter_row` for each row, and the count of the arguments of each class. -/
theorem commandWordClassesAreCounted : Obligations.CommandWordClassesAreCounted := by
  unfold Obligations.CommandWordClassesAreCounted
  have henc := length_filter_row (op := 0) (by decide) fun arg => decode_encode (.enc arg)
  have hreserved1 := length_filter_row (op := 1) (by decide) fun arg => decode_encode (.reservedOp1 arg)
  have hdecn := length_filter_row (op := 2) (by decide) fun arg => decode_encode (.decn arg)
  have hdecc := length_filter_row (op := 3) (by decide) fun arg => decode_encode (.decc arg)
  have hchbegin := length_filter_row (op := 4) (by decide) fun arg => decode_encode (.chbegin arg)
  have hinj := length_filter_row (op := 5) (by decide) fun arg => decode_encode (.inj arg)
  have hreserved6 := length_filter_row (op := 6) (by decide) fun arg => decode_encode (.reservedOp6 arg)
  have hreserved7 := length_filter_row (op := 7) (by decide) fun arg => decode_encode (.reservedOp7 arg)
  simp only [exec_eq_next, mapHam_ham, hamOp_reset_fcode, henc, hreserved1, hdecn, hdecc, hchbegin, hinj, hreserved6,
    hreserved7]
  exact ⟨rfl, rfl, rfl, rfl, rfl, rfl, rfl, rfl, by simp [classCode]⟩

end Sys2Proof.Machine

/-! PROOF. The bit conversions (40_bit_conversion.md): each conversion as a sum or a list over the positions, that each
undoes the other, the vectors that carry sequences, and the four obligations of that family. -/

namespace Sys2Proof.Machine

section BitsToInt

/-- The empty sequence has value 0 (40_bit_conversion.md rule R70). -/
@[simp] theorem bitsToInt_nil : bitsToInt [] = 0 := rfl

/-- The first bit is the most significant one (40_bit_conversion.md rule R70). -/
theorem bitsToInt_cons (b : Bool) (bs : List Bool) :
    bitsToInt (b :: bs) = b.toNat * 2 ^ bs.length + bitsToInt bs := rfl

/-- A leading zero changes no value (40_bit_conversion.md rule R70). -/
theorem bitsToInt_false_cons (bs : List Bool) : bitsToInt (false :: bs) = bitsToInt bs := by
  simp [bitsToInt_cons]

/-- The value as the sum of each bit times its power of two (40_bit_conversion.md rule R70). -/
theorem bitsToInt_eq_sum (bits : List Bool) :
    bitsToInt bits =
      ((List.range bits.length).map fun k => (bits.getD k false).toNat * 2 ^ (bits.length - 1 - k)).sum := by
  induction bits with
  | nil => rfl
  | cons b bs ih =>
    have hk : ∀ k : Nat, bs.length - 1 - k = bs.length - (k + 1) := by omega
    rw [bitsToInt_cons, ih, List.length_cons, List.range_succ_eq_map]
    simp [Function.comp_def, hk]

end BitsToInt

section IntToBits

/-- The conversion's first bit is the one of weight `2^width`, and the rest converts at the smaller width
(40_bit_conversion.md rule R71). -/
theorem bigEndianBits_succ (value width : Nat) :
    bigEndianBits value (width + 1) = value.testBit width :: bigEndianBits value width := by
  rw [Nat.testBit_eq_decide_div_mod_eq, bigEndianBits]

/-- The element after `k` others is bit `width - (k + 1)` of the value (40_bit_conversion.md rule R71). -/
theorem bigEndianBits_eq_map (value width : Nat) :
    bigEndianBits value width = (List.range width).map fun k => value.testBit (width - (k + 1)) := by
  induction width with
  | zero => rfl
  | succ w ih => simp [bigEndianBits_succ, ih, List.range_succ_eq_map, Function.comp_def]

/-- `bk` of a conversion, counted from 1 (40_bit_conversion.md rule R71). -/
theorem bigEndianBits_getD {width k : Nat} (value : Nat) (h1 : 1 ≤ k) (hk : k ≤ width) :
    (bigEndianBits value width).getD (k - 1) false = value.testBit (width - k) := by
  have hlt : k - 1 < width := by omega
  simp [bigEndianBits_eq_map, hlt, Nat.sub_add_cancel h1]

/-- Only the low `width` bits of a value are converted (40_bit_conversion.md rule R71). -/
theorem bigEndianBits_mod_two_pow (value width : Nat) :
    bigEndianBits (value % 2 ^ width) width = bigEndianBits value width := by
  simp only [bigEndianBits_eq_map]
  refine List.map_congr_left fun k hk => ?_
  have hlt : width - (k + 1) < width := by
    have := List.mem_range.mp hk
    omega
  simp [Nat.testBit_mod_two_pow, hlt]

variable {value width : Nat}

/-- A value of `2^width` or more is rejected, not truncated (40_bit_conversion.md rule R72). -/
theorem intToBits_of_wide (hw : 0 < width) (hv : 2 ^ width ≤ value) :
    intToBits value width = .error .domainError := by
  simp [intToBits, hw.ne', hv]

/-- A value below `2^width` converts (40_bit_conversion.md rule R71). -/
theorem intToBits_of_fit (hw : 0 < width) (hv : value < 2 ^ width) :
    intToBits value width = .ok (bigEndianBits value width) := by
  simp [intToBits, hw.ne', hv]

end IntToBits

section Inverse

/-- Converting to bits and back keeps the low `width` bits (40_bit_conversion.md rule R73). -/
theorem bitsToInt_bigEndianBits (value width : Nat) : bitsToInt (bigEndianBits value width) = value % 2 ^ width := by
  induction width with
  | zero => simp [bigEndianBits, Nat.mod_one]
  | succ w ih =>
    rw [bigEndianBits_succ, bitsToInt_cons, ih, bigEndianBits_length, Nat.toNat_testBit, Nat.mod_pow_succ]
    ring

/-- Converting a sequence to its value and back gives the sequence (40_bit_conversion.md rule R73). -/
theorem bigEndianBits_bitsToInt (bits : List Bool) : bigEndianBits (bitsToInt bits) bits.length = bits := by
  induction bits with
  | nil => rfl
  | cons b bs ih =>
    have hlt := bitsToInt_lt bs
    have hfirst : (bitsToInt (b :: bs)).testBit bs.length = b := by
      rw [bitsToInt_cons, Nat.mul_comm, Nat.testBit_two_pow_mul_add _ hlt]
      cases b <;> simp
    have hrest : bitsToInt (b :: bs) % 2 ^ bs.length = bitsToInt bs := by
      rw [bitsToInt_cons, Nat.mul_add_mod_self_right, Nat.mod_eq_of_lt hlt]
    rw [List.length_cons, bigEndianBits_succ, hfirst, ← bigEndianBits_mod_two_pow, hrest, ih]

end Inverse

section Vectors

/-- The sequence a vector carries converts from its value (40_bit_conversion.md rule R74). -/
theorem bitsOfVec_eq_bigEndianBits {n : Nat} (v : BitVec n) : bitsOfVec v = bigEndianBits v.toNat n :=
  (bigEndianBits_eq_map v.toNat n).symm

/-- The value of the vector that carries a sequence (40_bit_conversion.md rule R74). -/
theorem vecOfBits_toNat (bits : List Bool) : (vecOfBits bits.length bits).toNat = bitsToInt bits :=
  Nat.mod_eq_of_lt (bitsToInt_lt bits)

/-- The vector that carries a sequence carries that sequence (40_bit_conversion.md rule R74). -/
theorem bitsOfVec_vecOfBits (bits : List Bool) : bitsOfVec (vecOfBits bits.length bits) = bits := by
  rw [bitsOfVec_eq_bigEndianBits, vecOfBits_toNat, bigEndianBits_bitsToInt]

end Vectors

/-- Settles O49: the value as a sum, the leading zero and the bound. -/
theorem bitsToIntIsBigEndian : Obligations.BitsToIntIsBigEndian := by
  unfold Obligations.BitsToIntIsBigEndian
  intro bits
  exact ⟨bitsToInt_eq_sum bits, bitsToInt_false_cons bits, bitsToInt_lt bits, bitsToInt_nil⟩

/-- Settles O50: a value fits or is rejected; the bits of one that fits are those of its conversion. -/
theorem intToBitsRejectsWhatDoesNotFit : Obligations.IntToBitsRejectsWhatDoesNotFit := by
  unfold Obligations.IntToBitsRejectsWhatDoesNotFit
  intro value width hw
  refine ⟨intToBits_of_wide hw, fun hv => ⟨_, intToBits_of_fit hw hv, bigEndianBits_length value width, ?_⟩⟩
  intro k h1 hk
  rw [bigEndianBits_getD value h1 hk, Nat.toNat_testBit]

/-- Settles O51: a value that fits is its own remainder, and a sequence's value is below its bound. -/
theorem bitConversionsAreInverse : Obligations.BitConversionsAreInverse := by
  unfold Obligations.BitConversionsAreInverse
  constructor
  · intro n w hw hn
    exact ⟨_, intToBits_of_fit hw hn, (bitsToInt_bigEndianBits n w).trans (Nat.mod_eq_of_lt hn)⟩
  · intro bits hne
    rw [intToBits_of_fit (List.length_pos_of_ne_nil hne) (bitsToInt_lt bits), bigEndianBits_bitsToInt]

/-- Settles O52: a vector carries the conversion of its value. -/
theorem vectorsCarrySequences : Obligations.VectorsCarrySequences := by
  unfold Obligations.VectorsCarrySequences
  refine ⟨fun bits => ⟨vecOfBits_toNat bits, bitsOfVec_vecOfBits bits⟩, fun n v hn => ?_⟩
  rw [bitsOfVec_eq_bigEndianBits]
  exact ⟨intToBits_of_fit hn v.isLt, fun k h1 hk => bigEndianBits_getD v.toNat h1 hk⟩

end Sys2Proof.Machine

/-! PROOF. The encoder (41_encoder.md): the positions of a Codeword and of the data the extractor reads, the syndrome bits as
parity checks, ENC as an injective linear map whose range is the words of Syndrome 0, its matrices, and the five obligations
of that family. -/

namespace Sys2Proof.Machine

section Positions

variable {n : Nat}

/-- Vectors are exclusive-or-ed position by position. -/
@[simp] theorem bitAt_xor (v w : BitVec n) (k : Nat) : bitAt (v ^^^ w) k = (bitAt v k ^^ bitAt w k) :=
  BitVec.getLsbD_xor

/-- A mask is applied position by position. -/
@[simp] theorem bitAt_and (v w : BitVec n) (k : Nat) : bitAt (v &&& w) k = (bitAt v k && bitAt w k) :=
  BitVec.getLsbD_and

/-- Vectors that agree at every position are equal (00_scope.md rules R7, R8). -/
theorem eq_of_bitAt {v w : BitVec n} (h : ∀ k ∈ List.range' 1 n, bitAt v k = bitAt w k) : v = w := by
  apply BitVec.eq_of_getLsbD_eq
  intro i hi
  have hpos : bitAt v (n - i) = bitAt w (n - i) := h _ (by rw [List.mem_range'_1]; omega)
  rwa [bitAt, bitAt, Nat.sub_sub_self hi.le] at hpos

/-- The Codeword of a Symbol, position by position (41_encoder.md rule R80). -/
@[simp] theorem bitAt_encodeSymbol (s : Symbol) :
    bitAt (encodeSymbol s) 1 = parity1 s ∧ bitAt (encodeSymbol s) 2 = parity2 s ∧ bitAt (encodeSymbol s) 3 = bitAt s 1
      ∧ bitAt (encodeSymbol s) 4 = parity3 s ∧ bitAt (encodeSymbol s) 5 = bitAt s 2
      ∧ bitAt (encodeSymbol s) 6 = bitAt s 3 ∧ bitAt (encodeSymbol s) 7 = bitAt s 4 := by
  revert s; decide

/-- The extractor reads positions 3, 5, 6 and 7 (42_decoder.md rule R95). -/
@[simp] theorem bitAt_extractData (c : Codeword) :
    bitAt (extractData c) 1 = bitAt c 3 ∧ bitAt (extractData c) 2 = bitAt c 5 ∧ bitAt (extractData c) 3 = bitAt c 6
      ∧ bitAt (extractData c) 4 = bitAt c 7 := by
  revert c; decide

/-- The Symbol in ARG, position by position (30_encoding.md rule R57). -/
theorem bitAt_symbolOf (arg : Arg) :
    bitAt (symbolOf arg) 1 = arg.getLsbD 3 ∧ bitAt (symbolOf arg) 2 = arg.getLsbD 2
      ∧ bitAt (symbolOf arg) 3 = arg.getLsbD 1 ∧ bitAt (symbolOf arg) 4 = arg.getLsbD 0 := by
  simp [bitAt, symbolOf]

end Positions

section ParityChecks

/-- `s1` checks the parity bit `p1` against the data bits it covers (41_encoder.md rule R82). -/
theorem syndrome1_eq_check (c : Codeword) : syndrome1 c = (bitAt c 1 ^^ parity1 (extractData c)) := by
  simp [syndrome1, parity1]

/-- `s2` checks the parity bit `p2` against the data bits it covers (41_encoder.md rule R82). -/
theorem syndrome2_eq_check (c : Codeword) : syndrome2 c = (bitAt c 2 ^^ parity2 (extractData c)) := by
  simp [syndrome2, parity2]

/-- `s3` checks the parity bit `p3` against the data bits it covers (41_encoder.md rule R82). -/
theorem syndrome3_eq_check (c : Codeword) : syndrome3 c = (bitAt c 4 ^^ parity3 (extractData c)) := by
  simp [syndrome3, parity3]

/-- The Syndrome is 0 exactly if its three bits are (42_decoder.md rule R92). -/
theorem syndromeOf_eq_zero_iff (c : Codeword) :
    syndromeOf c = 0#3 ↔ syndrome1 c = false ∧ syndrome2 c = false ∧ syndrome3 c = false := by
  have bits : ∀ s1 s2 s3 : Bool, BitVec.ofBool s3 ++ BitVec.ofBool s2 ++ BitVec.ofBool s1 = 0#3
      ↔ s1 = false ∧ s2 = false ∧ s3 = false := by decide
  exact bits _ _ _

/-- Positions 3, 5, 6, 7 of a Codeword repeat the Symbol (41_encoder.md rule R84). -/
@[simp] theorem extractData_encodeSymbol (s : Symbol) : extractData (encodeSymbol s) = s :=
  eq_of_bitAt (by simp [List.range'])

/-- Every Codeword passes the three checks (41_encoder.md rule R82). -/
theorem syndromeOf_encodeSymbol (s : Symbol) : syndromeOf (encodeSymbol s) = 0#3 := by
  simp [syndromeOf_eq_zero_iff, syndrome1_eq_check, syndrome2_eq_check, syndrome3_eq_check]

/-- A word that passes the three checks is the Codeword of its data bits (41_encoder.md rule R84). -/
theorem encodeSymbol_extractData {c : Codeword} (hc : syndromeOf c = 0#3) : encodeSymbol (extractData c) = c := by
  obtain ⟨h1, h2, h3⟩ := (syndromeOf_eq_zero_iff c).mp hc
  rw [syndrome1_eq_check, bne_eq_false_iff_eq] at h1
  rw [syndrome2_eq_check, bne_eq_false_iff_eq] at h2
  rw [syndrome3_eq_check, bne_eq_false_iff_eq] at h3
  exact eq_of_bitAt (by simp [List.range', h1, h2, h3])

/-- The Codewords are exactly the words of Syndrome 0 (41_encoder.md rule R84). -/
theorem syndromeOf_eq_zero_iff_codeword (c : Codeword) : syndromeOf c = 0#3 ↔ ∃ s : Symbol, encodeSymbol s = c := by
  constructor
  · exact fun hc => ⟨extractData c, encodeSymbol_extractData hc⟩
  · rintro ⟨s, rfl⟩
    exact syndromeOf_encodeSymbol s

end ParityChecks

section Linearity

/-- Every parity bit of an exclusive-or is the exclusive-or of the parity bits (41_encoder.md rule R84). -/
theorem parity_xor (a b : Symbol) :
    parity1 (a ^^^ b) = (parity1 a ^^ parity1 b) ∧ parity2 (a ^^^ b) = (parity2 a ^^ parity2 b)
      ∧ parity3 (a ^^^ b) = (parity3 a ^^ parity3 b) := by
  simp only [parity1, parity2, parity3, bitAt_xor, Bool.xor_assoc, Bool.xor_left_comm, and_self]

/-- ENC is linear (41_encoder.md rule R84). -/
theorem encodeSymbol_xor (a b : Symbol) : encodeSymbol (a ^^^ b) = encodeSymbol a ^^^ encodeSymbol b :=
  eq_of_bitAt (by simp [List.range', parity_xor])

/-- ENC takes 0 to 0 (41_encoder.md rule R84). -/
@[simp] theorem encodeSymbol_zero : encodeSymbol 0#4 = 0#7 := by decide

/-- Distinct Symbols give distinct Codewords, for the extractor undoes ENC (41_encoder.md rule R84). -/
theorem encodeSymbol_injective : Function.Injective encodeSymbol :=
  Function.LeftInverse.injective extractData_encodeSymbol

/-- The lightest nonzero Codewords have weight 3 (41_encoder.md rule R84). -/
theorem three_le_weight_encodeSymbol {s : Symbol} (hs : s ≠ 0) : 3 ≤ weight (encodeSymbol s) := by
  revert s; decide

/-- Distinct Codewords differ in at least 3 positions: their difference is a nonzero Codeword (41_encoder.md rule R84). -/
theorem three_le_weight_xor {a b : Symbol} (hab : a ≠ b) : 3 ≤ weight (encodeSymbol a ^^^ encodeSymbol b) := by
  rw [← encodeSymbol_xor]
  exact three_le_weight_encodeSymbol (mt BitVec.xor_eq_zero_iff.mp hab)

/-- The Codewords of the sixteen Symbols, in order (41_encoder.md rule R83). -/
theorem codewords_eq_table :
    (List.range 16).map (fun n => encodeSymbol (BitVec.ofNat 4 n))
      = [0x00, 0x69, 0x2A, 0x43, 0x4C, 0x25, 0x66, 0x0F, 0x70, 0x19, 0x5A, 0x33, 0x3C, 0x55, 0x16, 0x7F] := by
  decide

end Linearity

section Matrices

/-- The rows of the generator matrix are the Codewords of the Symbols with one data bit (41_encoder.md rule R85). -/
theorem generatorRows_eq : generatorRows = [encodeSymbol 8, encodeSymbol 4, encodeSymbol 2, encodeSymbol 1] := by
  decide

/-- A Symbol is the exclusive-or of the one-bit Symbols its bits select (41_encoder.md rule R85). -/
theorem symbol_eq_xor_units (s : Symbol) :
    s = (if bitAt s 1 then 8 else 0) ^^^ (if bitAt s 2 then 4 else 0) ^^^ (if bitAt s 3 then 2 else 0)
      ^^^ (if bitAt s 4 then 1 else 0) := by
  revert s; decide

/-- ENC is its matrix: it is linear, and each row is the Codeword of a one-bit Symbol (41_encoder.md rule R85). -/
theorem encodeSymbol_eq_encodeByMatrix (s : Symbol) : encodeSymbol s = encodeByMatrix s := by
  rw [congrArg encodeSymbol (symbol_eq_xor_units s), encodeByMatrix, generatorRows_eq]
  simp [encodeSymbol_xor, apply_ite encodeSymbol]

/-- A sequence has an odd number of ones exactly if the exclusive-or of its bits is 1. -/
theorem odd_ones_eq_foldr_xor (bits : List Bool) :
    decide ((bits.filter id).length % 2 = 1) = bits.foldr (· ^^ ·) false := by
  induction bits with
  | nil => rfl
  | cons b bits ih =>
    rw [List.foldr_cons, ← ih]
    cases b <;> simp [Nat.succ_mod_two_eq_one_iff, ← decide_not]

/-- The parity of a Codeword's weight is the exclusive-or of its seven positions (42_decoder.md rule R101). -/
theorem odd_weight_eq_xor (c : Codeword) :
    decide (weight c % 2 = 1)
      = (bitAt c 1 ^^ bitAt c 2 ^^ bitAt c 3 ^^ bitAt c 4 ^^ bitAt c 5 ^^ bitAt c 6 ^^ bitAt c 7) := by
  have hbits : bitsOfVec c = [bitAt c 1, bitAt c 2, bitAt c 3, bitAt c 4, bitAt c 5, bitAt c 6, bitAt c 7] := rfl
  rw [weight, odd_ones_eq_foldr_xor, hbits]
  simp

/-- The syndrome bits are the parities of the rows of the parity-check matrix (42_decoder.md rule R101). -/
theorem syndromeBits_eq_matrix (c : Codeword) :
    [syndrome1 c, syndrome2 c, syndrome3 c] = parityCheckRows.map fun row => decide (weight (row &&& c) % 2 = 1) := by
  simp only [odd_weight_eq_xor, bitAt_and]
  simp [parityCheckRows, syndrome1, syndrome2, syndrome3, bitAt]

end Matrices

/-- What an instruction does to the machine is what its meaning answers, with the parameters as they were (log 1). -/
theorem exec_of_hamOp {p : Params} {i : Instr} {h g : Ham74 p} (hop : hamOp i h = g) :
    exec i ⟨p, h⟩ = .next ⟨p, g⟩ := by
  rw [exec_eq_next, mapHam_mk, hop]

/-- Settles O5: the refusal, the check of ENC and its effect, with the Codeword read off the positions of the Symbol. -/
theorem encReturnsTheCodeword : Obligations.EncReturnsTheCodeword := by
  unfold Obligations.EncReturnsTheCodeword
  intro p h arg
  refine ⟨decode_encode (.enc arg), fun hf => exec_of_hamOp (hamOp_of_fault _ hf), fun hf hwide => ?raises,
    fun hf hfits => ?answers⟩
  case raises =>
    have hcheck : checkOf (.enc arg) h = some .range := (encCheck_eq arg).trans (if_neg (Nat.not_lt.mpr hwide))
    exact exec_of_hamOp (hamOp_of_check hf hcheck)
  case answers =>
    have hpass : checkOf (.enc arg) h = none := (encCheck_eq_none_iff arg).mpr hfits
    obtain ⟨h1, h2, h3, h4⟩ := bitAt_symbolOf arg
    refine exec_of_hamOp ((hamOp_of_pass hf hpass).trans ?_)
    rw [effectOf, encodeSymbol, parity1, parity2, parity3, h1, h2, h3, h4]
    rfl

/-- Settles O6: the numbers of the table of Codewords. -/
theorem encoderGraphIsTheTable : Obligations.EncoderGraphIsTheTable := by
  unfold Obligations.EncoderGraphIsTheTable
  have hnumbers := congrArg (List.map BitVec.toNat) codewords_eq_table
  rw [List.map_map] at hnumbers
  exact hnumbers

/-- Settles O7: each syndrome bit as a check, and the checks of a Codeword. -/
theorem syndromeChecksTheParityEquations : Obligations.SyndromeChecksTheParityEquations := by
  unfold Obligations.SyndromeChecksTheParityEquations
  exact ⟨fun c => ⟨syndrome1_eq_check c, syndrome2_eq_check c, syndrome3_eq_check c⟩, syndromeOf_encodeSymbol⟩

/-- Settles O8: the laws one by one, and the weights over the table of Codewords. -/
theorem encoderLaws : Obligations.EncoderLaws := by
  unfold Obligations.EncoderLaws
  refine ⟨encodeSymbol_xor, encodeSymbol_zero, fun _ _ heq => encodeSymbol_injective heq, syndromeOf_eq_zero_iff_codeword,
    fun _ _ => three_le_weight_xor, extractData_encodeSymbol, ?weights⟩
  case weights =>
    rw [codewords_eq_table]
    decide

/-- Settles O9: ENC and the syndrome bits by their matrices. -/
theorem codecIsItsMatrices : Obligations.CodecIsItsMatrices := by
  unfold Obligations.CodecIsItsMatrices
  exact ⟨encodeSymbol_eq_encodeByMatrix, generatorRows_eq, syndromeBits_eq_matrix⟩

end Sys2Proof.Machine

/-! PROOF. The decoder (42_decoder.md): the Syndrome as a linear map that names the one position set, the flip masks as the
words of weight at most 1, DECC as the answer of the one Codeword within a flip, what DECC and DECN present, and the twelve
obligations of that family. -/

namespace Sys2Proof.Machine

section SyndromeBits

/-- The value of the Syndrome (42_decoder.md rule R92). -/
theorem syndromeOf_toNat (c : Codeword) :
    (syndromeOf c).toNat = 4 * (syndrome3 c).toNat + 2 * (syndrome2 c).toNat + (syndrome1 c).toNat := by
  have value : ∀ s1 s2 s3 : Bool, (BitVec.ofBool s3 ++ BitVec.ofBool s2 ++ BitVec.ofBool s1).toNat
      = 4 * s3.toNat + 2 * s2.toNat + s1.toNat := by decide
  exact value _ _ _

/-- Every syndrome bit of an exclusive-or is the exclusive-or of the syndrome bits (42_decoder.md rule R91). -/
theorem syndromeBits_xor (a b : Codeword) :
    syndrome1 (a ^^^ b) = (syndrome1 a ^^ syndrome1 b) ∧ syndrome2 (a ^^^ b) = (syndrome2 a ^^ syndrome2 b)
      ∧ syndrome3 (a ^^^ b) = (syndrome3 a ^^ syndrome3 b) := by
  simp only [syndrome1, syndrome2, syndrome3, bitAt_xor, Bool.xor_assoc, Bool.xor_left_comm, and_self]

/-- The Syndrome is linear (42_decoder.md rule R100 item 5). -/
@[simp] theorem syndromeOf_xor (a b : Codeword) : syndromeOf (a ^^^ b) = syndromeOf a ^^^ syndromeOf b := by
  obtain ⟨h1, h2, h3⟩ := syndromeBits_xor a b
  simp only [syndromeOf, h1, h2, h3, ← BitVec.ofBool_xor_ofBool, ← BitVec.xor_append]

/-- The data extractor is linear (42_decoder.md rule R95). -/
theorem extractData_xor (a b : Codeword) : extractData (a ^^^ b) = extractData a ^^^ extractData b :=
  eq_of_bitAt (by simp [List.range'])

/-- No data is read exactly if no data position is set (42_decoder.md rule R95). -/
theorem extractData_eq_zero_iff (c : Codeword) : extractData c = 0#4 ↔ ∀ k ∈ [3, 5, 6, 7], bitAt c k = false := by
  revert c; decide

end SyndromeBits

section FlipMasks

/-- Syndrome 0 names no position (42_decoder.md rule R93). -/
@[simp] theorem flipMask_zero : flipMask 0#3 = 0#7 := rfl

/-- The mask of a Syndrome is `0x80 >> syn`; for Syndrome 0 that leaves no bit on `C[6:0]` (42_decoder.md rule R93). -/
theorem flipMask_eq_shift (a : Syndrome) : flipMask a = BitVec.ofNat 7 (0x80 >>> a.toNat) := by
  revert a; decide

/-- The mask of a Syndrome that names a position, as a number (42_decoder.md rule R93). -/
theorem flipMask_toNat {a : Syndrome} (ha : a ≠ 0#3) : (flipMask a).toNat = 0x80 >>> a.toNat := by
  revert a; decide

/-- The mask of a Syndrome has a bit at the position it names and nowhere else (42_decoder.md rule R93). -/
theorem bitAt_flipMask (a : Syndrome) : ∀ k ∈ List.range' 1 7, bitAt (flipMask a) k = decide (k = a.toNat) := by
  revert a; decide

/-- A Syndrome other than 0 names a position (42_decoder.md rule R93). -/
theorem toNat_mem_positions {a : Syndrome} (ha : a ≠ 0#3) : a.toNat ∈ List.range' 1 7 := by
  revert a; decide

/-- Each position 1 to 7 is named by a Syndrome, whose mask is the flip of that position (42_decoder.md rule R93). -/
theorem exists_syndrome_of_position {k : Nat} (h1 : 1 ≤ k) (h7 : k ≤ 7) :
    ∃ a : Syndrome, a ≠ 0#3 ∧ a.toNat = k ∧ BitVec.ofNat 7 (0x80 >>> k) = flipMask a := by
  have hk : (BitVec.ofNat 3 k).toNat = k := Nat.mod_eq_of_lt (by omega)
  refine ⟨BitVec.ofNat 3 k, fun hzero => ?_, hk, by rw [flipMask_eq_shift, hk]⟩
  rw [hzero] at hk
  exact absurd hk.symm (Nat.ne_of_gt h1)

/-- The mapper is undone by the Syndrome (42_decoder.md rules R93, R100 item 5). -/
@[simp] theorem syndromeOf_flipMask (a : Syndrome) : syndromeOf (flipMask a) = a := by
  revert a; decide

/-- The masks are the words of weight at most 1. -/
theorem weight_le_one_iff (e : Codeword) : weight e ≤ 1 ↔ ∃ a : Syndrome, flipMask a = e := by
  revert e; decide

/-- The mask of a Syndrome other than 0 is one flip. -/
theorem weight_flipMask {a : Syndrome} (ha : a ≠ 0#3) : weight (flipMask a) = 1 := by
  revert a; decide

/-- Flipping a position that is clear adds 1 to the weight. -/
theorem weight_xor_flipMask {e : Codeword} {a : Syndrome} (ha : a ≠ 0#3) (hclear : bitAt e a.toNat = false) :
    weight (e ^^^ flipMask a) = weight e + 1 := by
  revert e a; decide

/-- The flip of another position leaves a position clear. -/
theorem bitAt_flipMask_of_ne {a b : Syndrome} (hb : b ≠ 0#3) (hba : b ≠ a) : bitAt (flipMask a) b.toNat = false := by
  rw [bitAt_flipMask a _ (toNat_mem_positions hb), decide_eq_false_iff_not, BitVec.toNat_inj]
  exact hba

/-- Flips at two different positions have weight 2. -/
theorem weight_two_flips {a b : Syndrome} (ha : a ≠ 0#3) (hb : b ≠ 0#3) (hba : b ≠ a) :
    weight (flipMask a ^^^ flipMask b) = 2 := by
  rw [weight_xor_flipMask hb (bitAt_flipMask_of_ne hb hba), weight_flipMask ha]

/-- Flips at three different positions have weight 3. -/
theorem weight_three_flips {a b c : Syndrome} (ha : a ≠ 0#3) (hb : b ≠ 0#3) (hc : c ≠ 0#3) (hba : b ≠ a) (hca : c ≠ a)
    (hcb : c ≠ b) : weight (flipMask a ^^^ flipMask b ^^^ flipMask c) = 3 := by
  have hclear : bitAt (flipMask a ^^^ flipMask b) c.toNat = false := by
    rw [bitAt_xor, bitAt_flipMask_of_ne hc hca, bitAt_flipMask_of_ne hc hcb, Bool.false_xor]
  rw [weight_xor_flipMask hc hclear, weight_two_flips ha hb hba]

/-- Flips at two different positions reach the data exactly if one of the positions holds data (42_decoder.md rule R95). -/
theorem extractData_two_flips {a b : Syndrome} (hab : a ≠ b) :
    extractData (flipMask a ^^^ flipMask b) ≠ 0#4 ↔ a.toNat ∈ [3, 5, 6, 7] ∨ b.toNat ∈ [3, 5, 6, 7] := by
  have hne : a.toNat ≠ b.toNat := mt BitVec.toNat_inj.mp hab
  have hbit : ∀ k ∈ [3, 5, 6, 7],
      (bitAt (flipMask a ^^^ flipMask b) k = false ↔ k ≠ a.toNat ∧ k ≠ b.toNat) := by
    intro k hk
    have hpos : k ∈ List.range' 1 7 := by revert k; decide
    rw [bitAt_xor, bitAt_flipMask a k hpos, bitAt_flipMask b k hpos]
    grind
  rw [Ne, extractData_eq_zero_iff, forall₂_congr hbit]
  grind

/-- The flip of a position reaches the data exactly if the position holds data, which the Syndromes 1, 2 and 4 do not name
(42_decoder.md rule R99). -/
theorem extractData_flipMask_eq_zero_iff (a : Syndrome) : extractData (flipMask a) = 0#4 ↔ a.toNat ∈ [0, 1, 2, 4] := by
  revert a; decide

/-- The flip of a data position changes one data bit (42_decoder.md rule R99). -/
theorem weight_extractData_flipMask {a : Syndrome} (ha : extractData (flipMask a) ≠ 0#4) :
    weight (extractData (flipMask a)) = 1 := by
  revert a; decide

end FlipMasks

section NearestCodeword

/-- The corrector always applies the mask of the Syndrome: that of Syndrome 0 is empty (42_decoder.md rules R93, R94). -/
theorem correctWord_true (c : Codeword) : correctWord true c = c ^^^ flipMask (syndromeOf c) := by
  by_cases hsyn : syndromeOf c = 0#3 <;> simp [correctWord, wasCorrected, hsyn]

/-- Without correction the word is taken as it was received (42_decoder.md rule R94). -/
theorem decodeReceived_false (c : Codeword) : decodeReceived false c = (extractData c, false) := rfl

/-- With correction the data bits are those of the word with the mask of its Syndrome applied (42_decoder.md rules R94,
R95). -/
theorem decodeReceived_true (c : Codeword) :
    decodeReceived true c = (extractData (c ^^^ flipMask (syndromeOf c)), decide (syndromeOf c ≠ 0#3)) := by
  rw [decodeReceived, correctWord_true, wasCorrected, Bool.true_and]

/-- The corrected word has Syndrome 0, so it is the Codeword of the Symbol that the decoder answers (42_decoder.md
rule R100 item 8). -/
theorem encodeSymbol_decodeReceived_true (c : Codeword) :
    encodeSymbol (decodeReceived true c).1 = c ^^^ flipMask (syndromeOf c) := by
  have hclean : syndromeOf (c ^^^ flipMask (syndromeOf c)) = 0#3 := by simp
  rw [decodeReceived_true]
  exact encodeSymbol_extractData hclean

/-- With correction the decoder answers `s` exactly if the Codeword of `s` is within one flip of the word (42_decoder.md
rule R100 item 8). The distance is a mask, and the Syndrome of the word finds it. -/
theorem decodeReceived_true_eq_iff (c : Codeword) (s : Symbol) :
    (decodeReceived true c).1 = s ↔ weight (c ^^^ encodeSymbol s) ≤ 1 := by
  rw [weight_le_one_iff]
  constructor
  · rintro rfl
    exact ⟨syndromeOf c, by rw [encodeSymbol_decodeReceived_true, xor_cancel_left]⟩
  · rintro ⟨a, hmask⟩
    have hsyn : syndromeOf c = a := by
      have hxor := congrArg syndromeOf hmask
      rw [syndromeOf_flipMask, syndromeOf_xor, syndromeOf_encodeSymbol, BitVec.xor_zero] at hxor
      exact hxor.symm
    rw [decodeReceived_true, hsyn, hmask, xor_cancel_left, extractData_encodeSymbol]

/-- DECC recovers the Symbol of a Codeword exactly under at most one flip (42_decoder.md rule R100). -/
theorem decodeReceived_true_codeword_xor (s : Symbol) (e : Codeword) :
    (decodeReceived true (encodeSymbol s ^^^ e)).1 = s ↔ weight e ≤ 1 := by
  rw [decodeReceived_true_eq_iff, xor_xor_cancel_comm]

/-- DECN recovers the Symbol of a Codeword exactly if no flip reaches the data (42_decoder.md rule R95). -/
theorem extractData_codeword_xor_eq_iff (s : Symbol) (e : Codeword) :
    extractData (encodeSymbol s ^^^ e) = s ↔ extractData e = 0#4 := by
  rw [extractData_xor, extractData_encodeSymbol]
  exact xor_left_eq_self_iff

/-- The Syndrome is 0 exactly if the word is the Codeword of the Symbol that the decoder answers (42_decoder.md rule R100
item 8). -/
theorem syndromeOf_eq_zero_iff_nearest (c : Codeword) :
    syndromeOf c = 0#3 ↔ c = encodeSymbol (decodeReceived true c).1 := by
  constructor
  · intro hsyn
    rw [encodeSymbol_decodeReceived_true, hsyn, flipMask_zero, BitVec.xor_zero]
  · intro hc
    rw [hc]
    exact syndromeOf_encodeSymbol _

/-- The Syndrome of a Codeword with flips is that of the flips alone (42_decoder.md rule R100 item 5). -/
theorem syndromeOf_codeword_xor (s : Symbol) (e : Codeword) : syndromeOf (encodeSymbol s ^^^ e) = syndromeOf e := by
  rw [syndromeOf_xor, syndromeOf_encodeSymbol, BitVec.zero_xor]

end NearestCodeword

section DecoderAnswers

variable {p : Params} {h : Ham74 p}

/-- What DECC answers in an unfaulted machine (42_decoder.md rule R97). -/
theorem exec_decc (hf : h.fault = false) (c : Codeword) :
    exec (.decc c) ⟨p, h⟩ = .next ⟨p, { h with
      out := some ⟨(decodeReceived true c).1.zeroExtend 7, decide (syndromeOf c ≠ 0#3), false, 0⟩ }⟩ := by
  have hwasc : (decodeReceived true c).2 = decide (syndromeOf c ≠ 0#3) := by rw [decodeReceived_true]
  rw [← hwasc]
  exact exec_of_hamOp (hamOp_of_pass hf rfl)

/-- What DECN answers in an unfaulted machine (42_decoder.md rule R96). -/
theorem exec_decn (hf : h.fault = false) (c : Codeword) :
    exec (.decn c) ⟨p, h⟩ = .next ⟨p, { h with out := some ⟨(extractData c).zeroExtend 7, false, false, 0⟩ }⟩ :=
  exec_of_hamOp (hamOp_of_pass hf rfl)

/-- The data bits on `RES[3:0]`, c3 first (30_encoding.md rule R65). -/
theorem zeroExtend_extractData (c : Codeword) :
    (extractData c).zeroExtend 7 = 0#3 ++ BitVec.ofBool (c.getLsbD 4) ++ BitVec.ofBool (c.getLsbD 2)
      ++ BitVec.ofBool (c.getLsbD 1) ++ BitVec.ofBool (c.getLsbD 0) := by
  revert c; decide

/-- In an unfaulted machine every operation presents outputs, with `WASC = 1` exactly for DECC of a word whose Syndrome is
not 0 (42_decoder.md rule R98). -/
theorem hamOp_wasc (hf : h.fault = false) (i : Instr) :
    ∃ o, (hamOp i h).out = some o ∧ (o.wasc = true ↔ ∃ c : Codeword, i = .decc c ∧ syndromeOf c ≠ 0#3) := by
  cases hc : checkOf i h with
  | some cause =>
    have hno : ¬∃ c : Codeword, i = .decc c ∧ syndromeOf c ≠ 0#3 := by
      rintro ⟨c, rfl, -⟩
      cases hc
    exact ⟨_, congrArg Ham74.out (hamOp_of_check hf hc), iff_of_false Bool.false_ne_true hno⟩
  | none =>
    rw [hamOp_of_pass hf hc]
    cases i with
    | decc c => exact ⟨decodeOutputs true c, rfl, by simp [decodeOutputs, resultOutputs, decodeReceived_true]⟩
    | enc | decn | chbegin | inj => exact ⟨_, rfl, iff_of_false Bool.false_ne_true nofun⟩
    | reservedOp1 | reservedOp6 | reservedOp7 => cases hc

end DecoderAnswers

/-- Settles O12: the refusal, and the data bits of the word as it was received. -/
theorem decnReturnsTheDataBits : Obligations.DecnReturnsTheDataBits := by
  unfold Obligations.DecnReturnsTheDataBits
  intro p h arg
  refine ⟨decode_encode (.decn arg), fun hf => exec_of_hamOp (hamOp_of_fault _ hf), fun hf => ?_⟩
  rw [exec_decn hf, zeroExtend_extractData]

/-- Settles O13: the refusal, and the data bits of the word with the mask of its Syndrome applied. -/
theorem deccCorrectsAndReturnsTheDataBits : Obligations.DeccCorrectsAndReturnsTheDataBits := by
  unfold Obligations.DeccCorrectsAndReturnsTheDataBits
  intro p h arg
  refine ⟨decode_encode (.decc arg), fun hf => exec_of_hamOp (hamOp_of_fault _ hf), fun hf => ?_⟩
  intro c1 c2 c3 c4 c5 c6 c7 syn c' res
  have hsyn : syn = (syndromeOf arg).toNat := (syndromeOf_toNat arg).symm
  have hwasc : syn ≠ 0 ↔ syndromeOf arg ≠ 0#3 := by
    rw [hsyn]
    exact not_congr (BitVec.toNat_inj (y := 0#3))
  have hword : c' = arg ^^^ flipMask (syndromeOf arg) := by
    rw [flipMask_eq_shift, ← hsyn]
    by_cases hzero : syn = 0 <;> simp [c', hzero]
  rw [exec_decc hf, decodeReceived_true, zeroExtend_extractData, ← hword, ← decide_eq_decide.mpr hwasc]

/-- Settles O14: `hamOp_wasc`. -/
theorem wascExactlyForDeccWithSyndrome : Obligations.WascExactlyForDeccWithSyndrome := by
  unfold Obligations.WascExactlyForDeccWithSyndrome
  intro p h i hf
  obtain ⟨o, ho, hwasc⟩ := hamOp_wasc hf i
  exact ⟨hamOp i h, o, exec_eq_next i ⟨p, h⟩, ho, hwasc⟩

/-- Settles O15: the flip is the mask of the Syndrome that names its position. -/
theorem singleFlipIsCorrected : Obligations.SingleFlipIsCorrected := by
  unfold Obligations.SingleFlipIsCorrected
  intro p h s i hf h1 h7
  obtain ⟨a, ha, rfl, hflip⟩ := exists_syndrome_of_position h1 h7
  rw [hflip]
  intro received
  have hsyn : syndromeOf received = a := (syndromeOf_codeword_xor s _).trans (syndromeOf_flipMask a)
  have hdata : (decodeReceived true received).1 = s :=
    (decodeReceived_true_codeword_xor s _).mpr (weight_flipMask ha).le
  refine ⟨congrArg BitVec.toNat hsyn, ?_⟩
  rw [exec_decc hf, hdata, hsyn, decide_eq_true ha]

/-- Settles O16: both decoders undo ENC, and DECN answers the data bits of any word. -/
theorem cleanCodewordsRoundTrip : Obligations.CleanCodewordsRoundTrip := by
  unfold Obligations.CleanCodewordsRoundTrip
  refine fun p h hf => ⟨fun s => ⟨?decc, ?decn⟩, fun c => ⟨extractData c, exec_decn hf c⟩⟩
  case decc =>
    rw [exec_decc hf, decodeReceived_encodeSymbol, syndromeOf_encodeSymbol]
    rfl
  case decn => rw [exec_decn hf, extractData_encodeSymbol]

/-- Settles O18: two flips have weight 2, so DECC misses the Symbol, and DECN misses it if a flip reaches the data. -/
theorem doubleFlipsAreMiscorrected : Obligations.DoubleFlipsAreMiscorrected := by
  unfold Obligations.DoubleFlipsAreMiscorrected
  intro p h s i j hf hi1 hi7 hj1 hj7 hij
  obtain ⟨a, ha, rfl, hflipA⟩ := exists_syndrome_of_position hi1 hi7
  obtain ⟨b, hb, rfl, hflipB⟩ := exists_syndrome_of_position hj1 hj7
  have hab : a ≠ b := ne_of_apply_ne BitVec.toNat hij
  rw [hflipA, hflipB, BitVec.xor_assoc]
  intro received
  have hsyn : syndromeOf received = a ^^^ b := by
    rw [syndromeOf_codeword_xor, syndromeOf_xor, syndromeOf_flipMask, syndromeOf_flipMask]
  have hdecc : (decodeReceived true received).1 ≠ s := by
    rw [Ne, decodeReceived_true_codeword_xor, weight_two_flips ha hb hab.symm]
    decide
  have hdecn : extractData received ≠ s ↔ a.toNat ∈ [3, 5, 6, 7] ∨ b.toNat ∈ [3, 5, 6, 7] := by
    rw [Ne, extractData_codeword_xor_eq_iff]
    exact extractData_two_flips hab
  have hwasc : syndromeOf received ≠ 0#3 := by
    rw [hsyn]
    exact mt BitVec.xor_eq_zero_iff.mp hab
  refine ⟨?syndrome, mt Nat.xor_eq_zero_iff.mp hij, ?notFirst, ?notSecond, ⟨_, hdecc, ?decc⟩, _, hdecn, exec_decn hf _⟩
  case syndrome => rw [hsyn, BitVec.toNat_xor]
  case notFirst => exact mt xor_left_eq_self_iff.mp (by omega)
  case notSecond => exact mt xor_right_eq_self_iff.mp (by omega)
  case decc => rw [exec_decc hf, decide_eq_true hwasc]

/-- Settles O19: three flips have weight 3, so DECC misses the Symbol; the Syndrome is the exclusive-or of the positions. -/
theorem tripleFlipsAreNeverCorrected : Obligations.TripleFlipsAreNeverCorrected := by
  unfold Obligations.TripleFlipsAreNeverCorrected
  intro p h s i j k hf h1 hij hjk h7
  obtain ⟨a, ha, rfl, hflipA⟩ := exists_syndrome_of_position h1 (by omega)
  obtain ⟨b, hb, rfl, hflipB⟩ := exists_syndrome_of_position (k := j) (by omega) (by omega)
  obtain ⟨c, hc, rfl, hflipC⟩ := exists_syndrome_of_position (k := k) (by omega) h7
  have hweight := weight_three_flips ha hb hc (ne_of_apply_ne BitVec.toNat hij.ne')
    (ne_of_apply_ne BitVec.toNat (hij.trans hjk).ne') (ne_of_apply_ne BitVec.toNat hjk.ne')
  rw [hflipA, hflipB, hflipC, BitVec.xor_assoc, BitVec.xor_assoc, ← BitVec.xor_assoc (flipMask a)]
  intro received
  have hsyn : syndromeOf received = a ^^^ b ^^^ c := by
    rw [syndromeOf_codeword_xor, syndromeOf_xor, syndromeOf_xor, syndromeOf_flipMask, syndromeOf_flipMask,
      syndromeOf_flipMask]
  have hdecc : (decodeReceived true received).1 ≠ s := by
    rw [Ne, decodeReceived_true_codeword_xor, hweight]
    decide
  have hwasc : syndromeOf received ≠ 0#3 ↔ a.toNat ^^^ b.toNat ^^^ c.toNat ≠ 0 := by
    rw [hsyn, ← BitVec.toNat_xor, ← BitVec.toNat_xor]
    exact not_congr BitVec.toNat_inj.symm
  exact ⟨_, hdecc, by rw [exec_decc hf, decide_eq_decide.mpr hwasc]⟩

/-- Settles O20: the Symbol that the decoder answers, by `decodeReceived_true_eq_iff`. -/
theorem deccAnswersTheNearestCodeword : Obligations.DeccAnswersTheNearestCodeword := by
  unfold Obligations.DeccAnswersTheNearestCodeword
  intro p h w hf
  refine ⟨(decodeReceived true w).1, (decodeReceived_true_eq_iff w _).mp rfl, fun r hr => ?unique, ?answer⟩
  case unique => exact ((decodeReceived_true_eq_iff w r).mpr hr).symm
  case answer => rw [exec_decc hf, decide_eq_decide.mpr (not_congr (syndromeOf_eq_zero_iff_nearest w))]

/-- Settles O10: the value of the Syndrome, and the value of the sequence of its bits. -/
theorem syndromeValue : Obligations.SyndromeValue := by
  unfold Obligations.SyndromeValue
  intro c s1 s2 s3
  have hvalue : (syndromeOf c).toNat = 4 * s3.toNat + 2 * s2.toNat + s1.toNat := syndromeOf_toNat c
  refine ⟨hvalue, hvalue.trans ?_⟩
  simp only [bitsToInt_cons, bitsToInt_nil, List.length_cons, List.length_nil]
  omega

/-- Settles O11: the masks as shifts, and their bits. -/
theorem mapperFlipsThePositionNamed : Obligations.MapperFlipsThePositionNamed := by
  unfold Obligations.MapperFlipsThePositionNamed
  exact ⟨flipMask_zero, fun a ha => ⟨flipMask_toNat ha, bitAt_flipMask a⟩⟩

/-- Settles O17: linearity, and the mask of each position. -/
theorem syndromeIsLinear : Obligations.SyndromeIsLinear := by
  unfold Obligations.SyndromeIsLinear
  refine ⟨syndromeOf_xor, fun k hk => ?_⟩
  obtain ⟨h1, h8⟩ := List.mem_range'_1.mp hk
  obtain ⟨a, -, rfl, hflip⟩ := exists_syndrome_of_position h1 (by omega)
  rw [hflip, syndromeOf_flipMask]

/-- Settles O21: the two answers differ by the data bits of the mask. -/
theorem decodersAgreeOnParitySyndromes : Obligations.DecodersAgreeOnParitySyndromes := by
  unfold Obligations.DecodersAgreeOnParitySyndromes
  intro w
  have hdiff : (decodeReceived true w).1 = (decodeReceived false w).1 ^^^ extractData (flipMask (syndromeOf w)) := by
    rw [decodeReceived_true, decodeReceived_false, extractData_xor]
  rw [hdiff, ← extractData_flipMask_eq_zero_iff]
  refine ⟨xor_left_eq_self_iff, fun hne => ⟨xor_xor_cancel_comm _ _, weight_extractData_flipMask fun hzero => hne ?_⟩⟩
  rw [hzero, BitVec.xor_zero]

end Sys2Proof.Machine

/-! PROOF. The channel's operations (43_channel.md sections 2 and 3): the checks of CHBEGIN and INJ cause by cause, the flip
decision in numbers, what the two operations do and present, what an instruction leaves of the aggregate counters, and six
obligations of that family. -/

namespace Sys2Proof.Machine

section ChannelChecks

variable {p : Params} (arg : Arg) (h : Ham74 p)

/-- The check of CHBEGIN, RESERVED before RATE (43_channel.md rules R111, R112). -/
theorem chbeginCheck_eq :
    chbeginCheck arg h
      = if arg.toNat ≠ 0 then some .reserved else if 2 ^ p.w < h.rateIn.toNat then some .rate else none := by
  simp [chbeginCheck, chbeginArgPresent_iff, rateAboveOne]

/-- The check of INJ, RANGE before OVERFLOW (43_channel.md rules R114 to R116). -/
theorem injCheck_eq :
    injCheck arg h
      = if 2 ≤ arg.toNat then some .range else if h.totalBits.toNat = 2 ^ p.cntw - 1 then some .overflow else none := by
  simp [injCheck, injArgTooLarge_iff, passFull]

/-- The flip decision as a comparison of numbers (43_channel.md rule R117). -/
theorem flips_eq : flips h = decide (h.rndIn.toNat < h.rate.toNat) := by
  rw [Bool.eq_iff_iff, flips_iff, decide_eq_true_iff]

end ChannelChecks

section ChannelOperations

variable {p : Params} {h : Ham74 p} {arg : Arg}

/-- `RES` of an INJ is 1 exactly if the bit differs from the flip (43_channel.md rule R114). -/
theorem injOutputs_eq (bit flip : Bool) : injOutputs bit flip = ⟨if bit = flip then 0 else 1, false, false, 0⟩ := by
  cases bit <;> cases flip <;> rfl

/-- `RES` of an INJ whose argument is one bit, without a flip and with one (43_channel.md rule R114, corner cases). -/
theorem injOutputs_streamBitOf (hbit : arg.toNat < 2) :
    injOutputs (streamBitOf arg) false = ⟨arg, false, false, 0⟩
      ∧ injOutputs (streamBitOf arg) true = ⟨arg ^^^ 1#7, false, false, 0⟩ := by
  revert arg; decide

/-- What CHBEGIN does at a legal rate (43_channel.md rule R111). -/
theorem hamOp_chbegin (hf : h.fault = false) (hrate : h.rateIn.toNat ≤ 2 ^ p.w) :
    hamOp (.chbegin 0) h = present (resultOutputs 0 false) (beginPass h) :=
  hamOp_of_pass hf ((chbeginCheck_eq_none_iff 0 h).mpr ⟨rfl, hrate⟩)

/-- What INJ of a bit does while the pass has room (43_channel.md rule R114). -/
theorem hamOp_inj (hf : h.fault = false) (hbit : arg.toNat < 2) (hroom : h.totalBits.toNat ≠ 2 ^ p.cntw - 1) :
    hamOp (.inj arg) h = present (injOutputs (streamBitOf arg) (flips h)) (countBit (flips h) h) :=
  hamOp_of_pass hf ((injCheck_eq_none_iff arg h).mpr ⟨hbit, hroom⟩)

end ChannelOperations

section AggregateCounters

variable {p : Params} {i : Instr} {h : Ham74 p}

/-- An instruction that leaves the machine unfaulted has run its effect (60_exceptions.md rules R154, R155). -/
theorem hamOp_of_unfaulted (hg : (hamOp i h).fault = false) : checkOf i h = none ∧ hamOp i h = effectOf i h := by
  rw [hamOp_eq_operate] at hg ⊢
  rcases operate_cases (checkOf i) (effectOf i) h with ⟨hf, hop⟩ | ⟨-, c, -, hop⟩ | ⟨-, hc, hop⟩
  · simp [hop, hf] at hg
  · simp [hop] at hg
  · exact ⟨hc, hop⟩

/-- An instruction that leaves the machine faulted leaves the aggregate counters (60_exceptions.md rules R154, R155). -/
theorem hamOp_totals_of_faulted (hg : (hamOp i h).fault = true) :
    (hamOp i h).totalBits = h.totalBits ∧ (hamOp i h).totalFlips = h.totalFlips := by
  cases hf : h.fault with
  | true => rw [hamOp_of_fault i hf]; exact ⟨rfl, rfl⟩
  | false =>
    obtain ⟨-, c, hop⟩ := hamOp_raises_of_fault_ne (i := i) (h := h) (.inl (by simp [hg, hf]))
    rw [hop]; exact ⟨rfl, rfl⟩

end AggregateCounters

/-- Settles O23: the refusal, the two causes of the check, and the writes of CHBEGIN. -/
theorem chbeginStartsAPass : Obligations.ChbeginStartsAPass := by
  unfold Obligations.ChbeginStartsAPass
  intro p h arg
  refine ⟨decode_encode (.chbegin arg), fun hf => exec_of_hamOp (hamOp_of_fault _ hf), fun hf harg => ?reserved,
    fun hf harg hrate => ?rate, fun hf harg hrate => ?begins⟩
  case reserved =>
    have hcheck : checkOf (.chbegin arg) h = some .reserved :=
      (chbeginCheck_eq arg h).trans (if_pos (mt BitVec.toNat_inj.mp harg))
    exact exec_of_hamOp (hamOp_of_check hf hcheck)
  case rate =>
    subst harg
    have hcheck : checkOf (.chbegin 0#7) h = some .rate := (chbeginCheck_eq 0#7 h).trans (if_pos hrate)
    exact exec_of_hamOp (hamOp_of_check hf hcheck)
  case begins =>
    subst harg
    exact exec_of_hamOp (hamOp_chbegin hf hrate)

/-- Settles O24: the refusal, the two causes of the check, and the writes of INJ for its flip. -/
theorem injPassesOneBit : Obligations.InjPassesOneBit := by
  unfold Obligations.InjPassesOneBit
  intro p h arg
  refine ⟨decode_encode (.inj arg), fun hf => exec_of_hamOp (hamOp_of_fault _ hf), fun hf hwide => ?range,
    fun hf hbit hfull => ?overflow, fun hf hbit hroom => ?passes⟩
  case range =>
    have hcheck : checkOf (.inj arg) h = some .range := (injCheck_eq arg h).trans (if_pos hwide)
    exact exec_of_hamOp (hamOp_of_check hf hcheck)
  case overflow =>
    have hcheck : checkOf (.inj arg) h = some .overflow :=
      (injCheck_eq arg h).trans ((if_neg (Nat.not_le.mpr hbit)).trans (if_pos hfull))
    exact exec_of_hamOp (hamOp_of_check hf hcheck)
  case passes =>
    intro flip
    refine exec_of_hamOp ((hamOp_inj hf hbit hroom).trans ?_)
    rw [flips_eq, injOutputs_eq]
    simp [present, countBit, streamBitOf, flip]

/-- The numbers of a range that are below a bound inside it are the smaller range. -/
theorem filter_lt_range {m n : Nat} (hmn : m ≤ n) : (List.range n).filter (fun u => decide (u < m)) = List.range m := by
  obtain ⟨k, rfl⟩ := Nat.exists_eq_add_of_le hmn
  have hlow : (List.range m).filter (fun u => decide (u < m)) = List.range m := by simp
  rw [List.range_add, List.filter_append, hlow]
  simp

/-- Settles O25: a draw of `W` bits is its own value, so the draws that flip are the numbers below the rate. -/
theorem rateCountsTheDrawsThatFlip : Obligations.RateCountsTheDrawsThatFlip := by
  unfold Obligations.RateCountsTheDrawsThatFlip
  refine fun p h => ⟨flips_iff h, fun hrate => ?_⟩
  have hdraw : ∀ u ∈ List.range (2 ^ p.w), flips { h with rndIn := BitVec.ofNat p.w u } = decide (u < h.rate.toNat) := by
    intro u hu
    rw [flips_eq, BitVec.toNat_ofNat, Nat.mod_eq_of_lt (List.mem_range.mp hu)]
  rw [List.filter_congr hdraw, filter_lt_range hrate, List.length_range]

/-- Settles O26: at rate 0 no draw is below the rate, at `2^W` every draw is. -/
theorem rateEndpointsAreExact : Obligations.RateEndpointsAreExact := by
  unfold Obligations.RateEndpointsAreExact
  intro p h arg hf hbit hroom
  obtain ⟨hkeep, hcomplement⟩ := injOutputs_streamBitOf hbit
  refine ⟨_, exec_of_hamOp (hamOp_inj hf hbit hroom), fun hrate => ?never, fun hrate => ?always⟩
  case never =>
    have hflip : flips h = false := flips_eq_false_of_rate_zero (BitVec.toNat_inj.mp hrate)
    simp [hflip, hkeep]
  case always =>
    have hflip : flips h = true := (flips_iff h).mpr (hrate ▸ h.rndIn.isLt)
    simp [hflip, hcomplement]

/-- Settles O27: a step idles, resets or runs one instruction; one that leaves no fault has run its effect, and the row that
OP selects says what that does to the counters. -/
theorem onlyInjChbeginAndResetChangeTheCounts : Obligations.OnlyInjChbeginAndResetChangeTheCounts := by
  unfold Obligations.OnlyInjChbeginAndResetChangeTheCounts
  rintro ⟨p, h⟩ t hstep
  rcases step_cases hstep with ⟨hp, rfl⟩ | ⟨i, rest, hp, hi, rfl⟩ | ⟨i, rest, hp, hi, -, rfl⟩
  · exact ⟨idle h, rfl, by simp [hp]⟩
  · exact ⟨_, rfl, by simp [hp, hi]⟩
  · refine ⟨_, rfl, ?_⟩
    simp only [hp, hi, Bool.false_eq_true, if_false]
    cases hg : (hamOp (decode i.cmd) (latch i rest h)).fault with
    | true => simpa using hamOp_totals_of_faulted hg
    | false =>
      obtain ⟨hpass, hop⟩ := hamOp_of_unfaulted hg
      have hrow : opOf (decode i.cmd) = i.cmd.extractLsb' 7 3 := opOf_decode i.cmd
      rw [hop, ← hrow]
      cases hd : decode i.cmd with
      | inj arg =>
        rw [hd] at hpass
        have hroom := ((injCheck_eq_none_iff arg _).mp hpass).2
        have hbits := toNat_add_one_of_not_full _ hroom
        simpa [opOf, effectOf, flips_iff] using hbits
      | enc | decn | decc | chbegin | reservedOp1 | reservedOp6 | reservedOp7 => simp [opOf, effectOf]

/-- Settles O22: DECC by the weight of the flips, DECN by the data positions among them. -/
theorem recoveryDependsOnTheFlipPattern : Obligations.RecoveryDependsOnTheFlipPattern := by
  unfold Obligations.RecoveryDependsOnTheFlipPattern
  exact fun s e => ⟨decodeReceived_true_codeword_xor s e, extractData_codeword_xor_eq_iff s e⟩

end Sys2Proof.Machine

/-! PROOF. A whole pass (43_channel.md section 4): the blocks of a sequence from its front and at its end, the reference loop
over them, what the machine holds after the flips of a pass so far, and the two obligations of that
section. -/

namespace Sys2Proof.Machine

section Blocks

variable {α β : Type}

/-- A block of 7 is cut off the front (20_memory.md rule R45). -/
theorem blocksOf7_append : ∀ {block : List α}, block.length = 7 → ∀ rest : List α,
    blocksOf7 (block ++ rest) = block :: blocksOf7 rest
  | [_, _, _, _, _, _, _], _, _ => rfl

/-- What is too short for a block of 7 is one block, unless it is empty (20_memory.md rule R45). -/
theorem blocksOf7_of_length_lt {l : List α} (hne : l ≠ []) (hlt : l.length < 7) : blocksOf7 l = [l] := by
  unfold blocksOf7
  split
  · exact absurd rfl hne
  · simp at hlt
    omega
  · rfl

/-- Induction over the blocks of a sequence: a last one shorter than 7, or a full one in front of the others. -/
theorem blocksOf7_induction {motive : List α → Prop} (short : ∀ l, l.length < 7 → motive l)
    (full : ∀ block rest, block.length = 7 → motive rest → motive (block ++ rest)) (l : List α) : motive l := by
  induction hn : l.length using Nat.strong_induction_on generalizing l with
  | _ n ih =>
    by_cases hlt : l.length < 7
    · exact short l hlt
    · rw [← List.take_append_drop 7 l]
      refine full _ _ (by simp; omega) (ih (l.drop 7).length ?_ _ rfl)
      simp
      omega

/-- The blocks of an image are the images of the blocks. -/
theorem blocksOf7_map (f : α → β) (l : List α) : blocksOf7 (l.map f) = (blocksOf7 l).map (List.map f) := by
  induction l using blocksOf7_induction with
  | short l hlt =>
    by_cases hne : l = []
    · subst hne; rfl
    · rw [blocksOf7_of_length_lt hne hlt, blocksOf7_of_length_lt (by simpa) (by simpa)]
      rfl
  | full block rest hblock ih =>
    rw [List.map_append, blocksOf7_append (by simpa), blocksOf7_append hblock, ih]
    rfl

/-- The blocks of a sequence put together are the sequence (20_memory.md rule R45). -/
theorem flatten_blocksOf7 (l : List α) : (blocksOf7 l).flatten = l := by
  induction l using blocksOf7_induction with
  | short l hlt =>
    by_cases hne : l = []
    · subst hne; rfl
    · rw [blocksOf7_of_length_lt hne hlt, List.flatten_singleton]
  | full block rest hblock ih => rw [blocksOf7_append hblock, List.flatten_cons, ih]

/-- The block that a further element joins: what follows the last full block. -/
def openBlock (l : List α) : List α := l.drop (7 * (l.length / 7))

/-- The open block has fewer than 7 elements. -/
theorem openBlock_length (l : List α) : (openBlock l).length = l.length % 7 := by
  rw [openBlock, List.length_drop]
  omega

/-- A full block in front is not part of the open block. -/
theorem openBlock_append {block : List α} (hblock : block.length = 7) (rest : List α) :
    openBlock (block ++ rest) = openBlock rest := by
  have hdrop : 7 * ((block ++ rest).length / 7) = block.length + 7 * (rest.length / 7) := by
    rw [List.length_append]
    omega
  rw [openBlock, hdrop, List.drop_length_add_append, openBlock]

/-- A sequence shorter than 7 is its own open block. -/
theorem openBlock_of_length_lt {l : List α} (hlt : l.length < 7) : openBlock l = l := by
  rw [openBlock, Nat.div_eq_of_lt hlt]
  rfl

/-- A further element joins the open block, and the seventh closes it (43_channel.md rule R120). -/
theorem openBlock_concat (l : List α) (x : α) :
    openBlock (l ++ [x]) = if l.length % 7 = 6 then [] else openBlock l ++ [x] := by
  rw [openBlock, List.length_append, List.length_singleton]
  split
  next hsix =>
    refine List.drop_eq_nil_of_le ?_
    rw [List.length_append, List.length_singleton]
    omega
  next hopen =>
    have hsame : (l.length + 1) / 7 = l.length / 7 := by omega
    rw [hsame, List.drop_append_of_le_length (by omega), openBlock]

end Blocks

section UncorrectableBlocks

/-- The number of blocks with two or more flips (43_channel.md rules R119, R121 item 4). -/
def uncorrectableBlocks (flipped : List Bool) : Nat :=
  ((blocksOf7 flipped).filter fun block => 2 ≤ block.count true).length

/-- At most one block: it counts if it has two flips, whether it is full or not (43_channel.md rule R120). -/
theorem uncorrectableBlocks_of_length_lt {flipped : List Bool} (hlt : flipped.length < 7) :
    uncorrectableBlocks flipped = if 2 ≤ flipped.count true then 1 else 0 := by
  by_cases hne : flipped = []
  · subst hne; rfl
  · rw [uncorrectableBlocks, blocksOf7_of_length_lt hne hlt]
    split <;> simp [*]

/-- A full block in front counts if it has two flips, and the blocks after it as before. -/
theorem uncorrectableBlocks_append {block : List Bool} (hblock : block.length = 7) (rest : List Bool) :
    uncorrectableBlocks (block ++ rest) = (if 2 ≤ block.count true then 1 else 0) + uncorrectableBlocks rest := by
  rw [uncorrectableBlocks, blocksOf7_append hblock, uncorrectableBlocks]
  split <;> simp [*, Nat.add_comm]

/-- A further bit makes its block uncorrectable exactly if it is the second flip of the open block (43_channel.md
rule R119). -/
theorem uncorrectableBlocks_concat (flipped : List Bool) (flip : Bool) :
    uncorrectableBlocks (flipped ++ [flip])
      = uncorrectableBlocks flipped + if flip = true ∧ (openBlock flipped).count true = 1 then 1 else 0 := by
  induction flipped using blocksOf7_induction with
  | short l hlt =>
    have hblock : uncorrectableBlocks (l ++ [flip]) = if 2 ≤ (l ++ [flip]).count true then 1 else 0 := by
      by_cases hsix : l.length = 6
      · rw [← List.append_nil (l ++ [flip]), uncorrectableBlocks_append (by simp [hsix]), List.append_nil]
        rfl
      · exact uncorrectableBlocks_of_length_lt (by simp; omega)
    rw [hblock, uncorrectableBlocks_of_length_lt hlt, openBlock_of_length_lt hlt, List.count_append,
      List.count_singleton]
    cases flip <;> grind
  | full block rest hblock ih =>
    rw [List.append_assoc, uncorrectableBlocks_append hblock, uncorrectableBlocks_append hblock, openBlock_append hblock,
      ih, Nat.add_assoc]

/-- Every uncorrectable block has two flips of its own (10_state.md rule R30). -/
theorem two_mul_uncorrectableBlocks_le (flipped : List Bool) :
    2 * uncorrectableBlocks flipped ≤ flipped.count true := by
  induction flipped using blocksOf7_induction with
  | short l hlt =>
    rw [uncorrectableBlocks_of_length_lt hlt]
    split <;> omega
  | full block rest hblock ih =>
    rw [uncorrectableBlocks_append hblock, List.count_append]
    split <;> omega

/-- Where no bit flips there is no uncorrectable block (43_channel.md rule R121 item 5). -/
theorem uncorrectableBlocks_replicate_false (n : Nat) : uncorrectableBlocks (List.replicate n false) = 0 := by
  have hle := two_mul_uncorrectableBlocks_le (List.replicate n false)
  rw [List.count_replicate] at hle
  simpa using hle

/-- Where every bit flips, every block of two or more bits is uncorrectable (43_channel.md rule R121 item 5). -/
theorem uncorrectableBlocks_replicate_true (n : Nat) :
    uncorrectableBlocks (List.replicate n true) = n / 7 + if 2 ≤ n % 7 then 1 else 0 := by
  induction n using Nat.strong_induction_on with
  | _ n ih =>
    by_cases hlt : n < 7
    · rw [uncorrectableBlocks_of_length_lt (by simpa), List.count_replicate_self, Nat.div_eq_of_lt hlt,
        Nat.mod_eq_of_lt hlt, Nat.zero_add]
    · obtain ⟨m, rfl⟩ := Nat.exists_eq_add_of_le (Nat.not_lt.mp hlt)
      rw [List.replicate_add, uncorrectableBlocks_append (by simp), ih m (by omega), List.count_replicate_self,
        Nat.add_mod_left]
      split <;> simp <;> omega

end UncorrectableBlocks

section ReferenceLoop

/-- Whether the bit with its draw flips (43_channel.md rule R117). -/
def drawFlips (rate : Nat) (x : Bool × Nat) : Bool := decide (x.2 < rate)

/-- The noisy bit for a bit with its draw (43_channel.md rule R121 item 3). -/
def noisyBit (rate : Nat) (x : Bool × Nat) : Bool := x.1 ^^ drawFlips rate x

/-- The inner loop gives the noisy bits of the block and the number of its flips (43_channel.md rule R123). -/
theorem corruptBlock_eq (rate : Nat) (block : List (Bool × Nat)) :
    corruptBlock rate block = (block.map (noisyBit rate), (block.map (drawFlips rate)).count true) := by
  induction block with
  | nil => rfl
  | cons x rest ih =>
    obtain ⟨b, draw⟩ := x
    by_cases hflip : draw < rate <;> simp [corruptBlock, noisyBit, drawFlips, hflip, ih]

/-- The outer loop adds up over its blocks (43_channel.md rule R123). -/
theorem corruptBlocks_eq (rate : Nat) (blocks : List (List (Bool × Nat))) :
    corruptBlocks rate blocks
      = ⟨blocks.flatten.map (noisyBit rate), blocks.flatten.length, (blocks.flatten.map (drawFlips rate)).count true,
          ((blocks.map (List.map (drawFlips rate))).filter fun block => 2 ≤ block.count true).length⟩ := by
  induction blocks with
  | nil => rfl
  | cons block rest ih =>
    by_cases hmany : 2 ≤ (block.map (drawFlips rate)).count true <;>
      simp [corruptBlocks, corruptBlock_eq, ih, hmany, Nat.add_comm, Nat.lt_iff_add_one_le]

/-- The reference loop, bit by bit (43_channel.md rule R123). -/
theorem corruptRef_eq (bits : List Bool) (rate : Nat) (draws : List Nat) :
    corruptRef bits rate draws
      = ⟨(bits.zip draws).map (noisyBit rate), (bits.zip draws).length,
          ((bits.zip draws).map (drawFlips rate)).count true,
          uncorrectableBlocks ((bits.zip draws).map (drawFlips rate))⟩ := by
  rw [corruptRef, corruptBlocks_eq, flatten_blocksOf7, uncorrectableBlocks, blocksOf7_map]

end ReferenceLoop

section PassState

variable {p : Params} {h : Ham74 p} {rate : Nat} {flipped : List Bool}

/-- The machine in a pass at rate `rate` whose bits so far flipped as `flipped` says (43_channel.md rules R118 to R120). -/
structure InPass (rate : Nat) (flipped : List Bool) (h : Ham74 p) : Prop where
  fault : h.fault = false
  rate : h.rate.toNat = rate
  totalBits : h.totalBits.toNat = flipped.length
  totalFlips : h.totalFlips.toNat = flipped.count true
  uncorrBlocks : h.uncorrBlocks.toNat = uncorrectableBlocks flipped
  pos : h.pos.toNat = flipped.length % 7
  blkf : h.blkf.toNat = (openBlock flipped).count true

/-- The port values of the next step do not concern the pass. -/
theorem InPass.latch (hpass : InPass rate flipped h) (i : Issue p.w) (rest : List (Issue p.w)) :
    InPass rate flipped (latch i rest h) where
  __ := hpass

/-- Neither do the outputs. -/
theorem InPass.present (hpass : InPass rate flipped h) (o : Outputs) : InPass rate flipped (present o h) where
  __ := hpass

/-- The writes of CHBEGIN begin a pass with no bits (43_channel.md rule R111). -/
theorem inPass_beginPass (hf : h.fault = false) : InPass h.rateIn.toNat [] (beginPass h) where
  fault := hf
  rate := rfl
  totalBits := BitVec.toNat_zero
  totalFlips := BitVec.toNat_zero
  uncorrBlocks := BitVec.toNat_zero
  pos := rfl
  blkf := rfl

/-- The writes of INJ take one bit into the pass, while it has room (43_channel.md rules R116, R118 to R120). -/
theorem InPass.countBit (hpass : InPass rate flipped h) (hroom : flipped.length < 2 ^ p.cntw - 1) (flip : Bool) :
    InPass rate (flipped ++ [flip]) (countBit flip h) := by
  have hflips : flipped.count true ≤ flipped.length := List.count_le_length
  have hblocks := two_mul_uncorrectableBlocks_le flipped
  have hopen : (openBlock flipped).count true ≤ flipped.length % 7 := by
    rw [← openBlock_length]
    exact List.count_le_length
  obtain ⟨hf, hrate, hbits, htotal, huncorr, hpos, hblkf⟩ := hpass
  have hfull : h.totalBits.toNat ≠ 2 ^ p.cntw - 1 := by omega
  have hone : flip.toNat = [flip].count true := by cases flip <;> rfl
  refine ⟨hf, hrate, ?bits, ?flips, ?uncorr, ?pos, ?blkf⟩
  case bits => rw [countBit_totalBits, toNat_add_one_of_not_full _ hfull, hbits, List.length_append, List.length_singleton]
  case flips => rw [countBit_totalFlips_toNat flip (by omega) hfull, htotal, List.count_append, hone]
  case uncorr =>
    rw [countBit_uncorrBlocks_toNat flip (by omega) hfull, uncorrectableBlocks_concat, huncorr, hblkf]
    simp only [Bool.toNat_eq_one]
    split <;> rfl
  case pos =>
    rw [countBit_pos_toNat flip (by omega), hpos, List.length_append, List.length_singleton]
    split <;> omega
  case blkf =>
    rw [countBit_blkf_toNat flip (by omega) (by omega), openBlock_concat, hpos, hblkf]
    split
    · rfl
    · rw [List.count_append, hone]

end PassState

section PassRuns

variable {p : Params} {h : Ham74 p} {rate : Nat} {flipped : List Bool}

/-- The bit that the host reads from an INJ (43_channel.md rule R114). -/
theorem resultBit_injOutputs (b flip : Bool) : resultBit (injOutputs b flip) = (b ^^ flip) := by
  cases b <;> cases flip <;> rfl

/-- A bit that the host puts into ARG (30_encoding.md rule R57). -/
theorem streamBitOf_ofNat_toNat (b : Bool) :
    (BitVec.ofNat 7 b.toNat).toNat < 2 ∧ streamBitOf (BitVec.ofNat 7 b.toNat) = b := by
  cases b <;> decide

/-- An accepted operation that presents outputs without an error: the machine stays ready and the run goes on. -/
theorem runOps_cons_of_present {op : AsmOp} {i : Issue p.w} {o : Outputs} {k : Ham74 p} (hr : State.Ready ⟨p, h⟩)
    (hi : assemble p op = some i) (hop : hamOp (asmInstr op) (latch i h.pending h) = present o k) (he : o.err = false)
    (ops : List AsmOp) :
    State.Ready ⟨p, present o k⟩
      ∧ runOps (op :: ops) ⟨p, h⟩ = (runOps ops ⟨p, present o k⟩).map fun r => (o :: r.1, r.2) := by
  rw [← hop]
  exact ⟨⟨hr.1, (hamOp_resetSeen _ _).trans hr.2⟩, runOps_cons hr hi (by rw [hop, present_out]) he⟩

/-- CHBEGIN of a legal rate begins a pass from any unfaulted machine (43_channel.md rule R111). -/
theorem runOps_chbegin (hr : State.Ready ⟨p, h⟩) (hf : h.fault = false) (hrate : rate ≤ 2 ^ p.w) (ops : List AsmOp) :
    ∃ (o : Outputs) (g : Ham74 p), State.Ready ⟨p, g⟩ ∧ InPass rate [] g
      ∧ runOps (.chbegin rate :: ops) ⟨p, h⟩ = (runOps ops ⟨p, g⟩).map fun r => (o :: r.1, r.2) := by
  obtain ⟨i, hi, -, -, hrateIn, -⟩ := assemble_of_fit (p := p) (op := .chbegin rate) (decide_eq_true hrate)
  have hop := hamOp_chbegin (h := latch i h.pending h) hf (hrateIn.trans_le hrate)
  obtain ⟨hready, hrun⟩ := runOps_cons_of_present hr hi hop rfl ops
  have hbegun := (inPass_beginPass (h := latch i h.pending h) hf).present (resultOutputs 0 false)
  rw [latch_rateIn, hrateIn, asmRateIn] at hbegun
  exact ⟨_, _, hready, hbegun, hrun⟩

/-- The INJ of a bit with its draw (30_encoding.md rule R63). -/
def injOfDraw (x : Bool × Nat) : AsmOp := .inj x.1.toNat x.2

/-- INJ of a bit with its draw, in a pass with room, answers the noisy bit and takes the flip into the pass (43_channel.md
rule R114). -/
theorem runOps_inj (hr : State.Ready ⟨p, h⟩) (hpass : InPass rate flipped h) (hroom : flipped.length < 2 ^ p.cntw - 1)
    {x : Bool × Nat} (hdraw : x.2 < 2 ^ p.w) (ops : List AsmOp) :
    ∃ (o : Outputs) (g : Ham74 p), State.Ready ⟨p, g⟩ ∧ InPass rate (flipped ++ [drawFlips rate x]) g
      ∧ resultBit o = noisyBit rate x
      ∧ runOps (injOfDraw x :: ops) ⟨p, h⟩ = (runOps ops ⟨p, g⟩).map fun r => (o :: r.1, r.2) := by
  have hfit : asmOperandsFit p (injOfDraw x) = true := by simp [injOfDraw, asmOperandsFit, x.1.toNat_le, hdraw]
  obtain ⟨i, hi, -, -, -, hrndIn⟩ := assemble_of_fit hfit
  have hflip : flips (latch i h.pending h) = drawFlips rate x := by
    rw [flips_eq, latch_rndIn, hrndIn, latch_rate, hpass.rate]
    rfl
  obtain ⟨hfits, hbit⟩ := streamBitOf_ofNat_toNat x.1
  have hop := hamOp_inj (h := latch i h.pending h) hpass.fault hfits (hpass.totalBits.trans_ne hroom.ne)
  rw [hflip, hbit] at hop
  obtain ⟨hready, hrun⟩ := runOps_cons_of_present hr hi hop rfl ops
  exact ⟨_, _, hready, ((hpass.latch i h.pending).countBit hroom _).present _, resultBit_injOutputs x.1 _, hrun⟩

/-- The INJ operations of a pass, from any point of it (43_channel.md rule R123, by induction on the bits). -/
theorem runOps_injs (xs : List (Bool × Nat)) (hr : State.Ready ⟨p, h⟩) (hpass : InPass rate flipped h)
    (hroom : flipped.length + xs.length ≤ 2 ^ p.cntw - 1) (hdraws : ∀ x ∈ xs, x.2 < 2 ^ p.w) :
    ∃ (outs : List Outputs) (g : Ham74 p), runOps (xs.map injOfDraw) ⟨p, h⟩ = .ok (outs, ⟨p, g⟩)
      ∧ outs.map resultBit = xs.map (noisyBit rate) ∧ State.Ready ⟨p, g⟩
      ∧ InPass rate (flipped ++ xs.map (drawFlips rate)) g := by
  induction xs generalizing h flipped with
  | nil => exact ⟨[], h, rfl, rfl, hr, by simpa using hpass⟩
  | cons x xs ih =>
    rw [List.length_cons] at hroom
    obtain ⟨hdraw, hdraws⟩ := List.forall_mem_cons.mp hdraws
    obtain ⟨o, g, hgr, hgpass, ho, hrun⟩ := runOps_inj hr hpass (by omega) hdraw (xs.map injOfDraw)
    obtain ⟨outs, k, hrest, hnoisy, hkr, hkpass⟩ := ih hgr hgpass (by simp; omega) hdraws
    refine ⟨o :: outs, k, ?_, ?_, hkr, ?_⟩
    · rw [List.map_cons, hrun, hrest]; rfl
    · rw [List.map_cons, List.map_cons, ho, hnoisy]
    · rwa [List.append_assoc] at hkpass

/-- A whole pass within its limit: the noisy bits, and the machine in the pass whose bits flipped as the draws say
(43_channel.md rule R123). -/
theorem runOps_passOps {bits : List Bool} {draws : List Nat} (hr : State.Ready ⟨p, h⟩) (hf : h.fault = false)
    (hrate : rate ≤ 2 ^ p.w) (hlimit : bits.length ≤ 2 ^ p.cntw - 1) (hdraws : ∀ u ∈ draws, u < 2 ^ p.w) :
    ∃ (begun : Outputs) (outs : List Outputs) (g : Ham74 p),
      runOps (passOps rate bits draws) ⟨p, h⟩ = .ok (begun :: outs, ⟨p, g⟩)
        ∧ outs.map resultBit = (bits.zip draws).map (noisyBit rate) ∧ State.Ready ⟨p, g⟩
        ∧ InPass rate ((bits.zip draws).map (drawFlips rate)) g := by
  have hops : passOps rate bits draws = .chbegin rate :: (bits.zip draws).map injOfDraw := by
    rw [List.map_zip_eq_zipWith]
    rfl
  have hroom : ([] : List Bool).length + (bits.zip draws).length ≤ 2 ^ p.cntw - 1 := by
    rw [List.length_nil, List.length_zip]
    omega
  obtain ⟨begun, k, hkr, hkpass, hbegin⟩ := runOps_chbegin hr hf hrate ((bits.zip draws).map injOfDraw)
  obtain ⟨outs, g, hinjs, hnoisy, hgr, hgpass⟩ :=
    runOps_injs (bits.zip draws) hkr hkpass hroom fun x hx => hdraws x.2 (List.of_mem_zip hx).2
  exact ⟨begun, outs, g, by rw [hops, hbegin, hinjs]; rfl, hnoisy, hgr, hgpass⟩

end PassRuns

section PassLaws

/-- The statistics of a machine in a pass are those of its flips (43_channel.md rule R113). -/
theorem InPass.statsOf {p : Params} {g : Ham74 p} {rate : Nat} {flipped : List Bool} (hpass : InPass rate flipped g) :
    statsOf ⟨p, g⟩ = ⟨flipped.length, flipped.count true, uncorrectableBlocks flipped⟩ := by
  rw [Machine.statsOf, hpass.totalBits, hpass.totalFlips, hpass.uncorrBlocks]

variable {bits : List Bool} {rate : Nat} {draws : List Nat}

/-- The flips depend on the draws and the rate alone (43_channel.md rule R121 item 3). -/
theorem map_drawFlips_zip (hlen : draws.length = bits.length) :
    (bits.zip draws).map (drawFlips rate) = draws.map fun u => decide (u < rate) := by
  have hdraws : (bits.zip draws).map Prod.snd = draws := List.map_snd_zip hlen.le
  rw [← congrArg (List.map fun u => decide (u < rate)) hdraws, List.map_map]
  rfl

/-- The noisy bits are the bits, each exclusive-or its flip (43_channel.md rule R121 item 3). -/
theorem map_noisyBit_zip :
    (bits.zip draws).map (noisyBit rate)
      = List.zipWith (fun b f => b ^^ f) bits (draws.map fun u => decide (u < rate)) := by
  rw [List.zipWith_map_right, List.map_zip_eq_zipWith]
  rfl

/-- A noisy bit differs from its bit exactly if it flipped (43_channel.md rule R121 item 1). -/
theorem count_noisyBit_ne (hlen : draws.length = bits.length) :
    ((((bits.zip draws).map (noisyBit rate)).zip bits).filter fun x => x.1 != x.2).length
      = ((bits.zip draws).map (drawFlips rate)).count true := by
  have hbits : (bits.zip draws).map Prod.fst = bits := List.map_fst_zip hlen.ge
  have hpairs : ((bits.zip draws).map (noisyBit rate)).zip bits
      = (bits.zip draws).map fun x => (noisyBit rate x, x.1) :=
    (congrArg _ hbits.symm).trans List.zip_map'
  have hdiffer : ∀ x : Bool × Nat, (noisyBit rate x != x.1) = (drawFlips rate x == true) := by
    intro x
    rw [noisyBit]
    cases x.1 <;> cases drawFlips rate x <;> rfl
  rw [hpairs, ← List.countP_eq_length_filter, List.countP_map, List.count_eq_countP, List.countP_map]
  exact List.countP_congr fun x _ => by simp only [Function.comp_apply, hdiffer]

/-- If every draw flips its bit, or none does, the noisy bits are the bits complemented, or the bits (43_channel.md rule R121
item 5). -/
theorem map_noisyBit_of_constant {flip : Bool} (hlen : draws.length = bits.length)
    (hflip : ∀ u ∈ draws, decide (u < rate) = flip) :
    (bits.zip draws).map (noisyBit rate) = bits.map (· ^^ flip) := by
  have hbits : (bits.zip draws).map Prod.fst = bits := List.map_fst_zip hlen.ge
  rw [← congrArg (List.map (· ^^ flip)) hbits, List.map_map]
  exact List.map_congr_left fun x hx => congrArg (x.1 ^^ ·) (hflip x.2 (List.of_mem_zip hx).2)

end PassLaws

/-- Settles O32: the pass and the reference loop, each bit by bit. -/
theorem passEqualsTheReferenceLoop : Obligations.PassEqualsTheReferenceLoop := by
  unfold Obligations.PassEqualsTheReferenceLoop
  rintro ⟨p, h⟩ rate bits draws hr hf hrate hlen hlimit hdraws
  obtain ⟨begun, outs, g, hrun, hnoisy, -, hpass⟩ := runOps_passOps hr hf hrate hlimit hdraws
  rw [corruptRef_eq]
  exact ⟨begun, outs, ⟨p, g⟩, hrun, hnoisy, by rw [hpass.statsOf, List.length_map]⟩

/-- Settles O33: the statistics of the flips that the draws make, and at the endpoints of the rate the same flip for every
draw. -/
theorem lawsOfAPass : Obligations.LawsOfAPass := by
  unfold Obligations.LawsOfAPass
  rintro ⟨p, h⟩ rate bits draws hr hf hrate hlen hlimit hdraws
  obtain ⟨begun, outs, g, hrun, hnoisy, -, hpass⟩ := runOps_passOps hr hf hrate hlimit hdraws
  refine ⟨begun, outs, ⟨p, g⟩, hrun, ?_⟩
  intro noisy flipped stats
  have hnoisy : noisy = (bits.zip draws).map (noisyBit rate) := hnoisy
  have hflipped : (bits.zip draws).map (drawFlips rate) = flipped := map_drawFlips_zip hlen
  have hstats : stats = ⟨bits.length, flipped.count true, uncorrectableBlocks flipped⟩ := by
    have hlength : flipped.length = bits.length := (List.length_map ..).trans hlen
    rw [← hlength, ← hflipped]
    exact hpass.statsOf
  have constant : ∀ flip : Bool, (∀ u ∈ draws, decide (u < rate) = flip) →
      noisy = bits.map (· ^^ flip) ∧ flipped = List.replicate bits.length flip := fun flip hflip =>
    ⟨hnoisy.trans (map_noisyBit_of_constant hlen hflip), hlen ▸ List.map_eq_replicate_iff.mpr hflip⟩
  rw [hstats]
  refine ⟨?flips, rfl, hnoisy.trans map_noisyBit_zip, rfl, fun hzero => ?never, fun hone => ?always, fun hempty => ?empty⟩
  case flips => rw [hnoisy, count_noisyBit_ne hlen, hflipped]
  case never =>
    obtain ⟨hbits, hflips⟩ := constant false fun u _ => by simp [hzero]
    refine ⟨by simpa using hbits, ?_, ?_⟩ <;> simp [hflips, uncorrectableBlocks_replicate_false, List.count_replicate]
  case always =>
    obtain ⟨hbits, hflips⟩ := constant true fun u hu => by simpa [hone] using hdraws u hu
    refine ⟨by simpa using hbits, ?_, ?_⟩ <;> simp [hflips, uncorrectableBlocks_replicate_true]
  case empty =>
    subst hempty
    obtain rfl : draws = [] := List.eq_nil_of_length_eq_zero hlen
    exact ⟨hnoisy, rfl⟩

end Sys2Proof.Machine

/-! PROOF. The host's pipeline (44_host_pipeline.md): the words that a pass of the channel makes of the codewords, the bytes
that the two decoders make of those words, a run of the pipeline in closed form, what any call leaves of the machine, and the
six obligations of that family. -/

namespace Sys2Proof.Machine

section NoisyWords

variable {n : Nat}

/-- The vector that carries the sequence of a vector is that vector (40_bit_conversion.md rule R74). -/
theorem vecOfBits_bitsOfVec (v : BitVec n) : vecOfBits n (bitsOfVec v) = v := by
  rw [vecOfBits, bitsOfVec_eq_bigEndianBits, bitsToInt_bigEndianBits, Nat.mod_eq_of_lt v.isLt, BitVec.ofNat_toNat,
    BitVec.setWidth_eq]

/-- The vector of `n` bits that carries a sequence of `n` carries that sequence (40_bit_conversion.md rule R74). -/
theorem bitsOfVec_vecOfBits_of_length {bits : List Bool} (hlen : bits.length = n) : bitsOfVec (vecOfBits n bits) = bits := by
  subst hlen
  exact bitsOfVec_vecOfBits bits

/-- A vector carries one element a bit (00_scope.md rule R8). -/
@[simp] theorem bitsOfVec_length (v : BitVec n) : (bitsOfVec v).length = n := by
  rw [bitsOfVec_eq_bigEndianBits, bigEndianBits_length]

/-- The sequence of an exclusive-or, bit by bit. -/
theorem bitsOfVec_xor (v w : BitVec n) : bitsOfVec (v ^^^ w) = List.zipWith (· ^^ ·) (bitsOfVec v) (bitsOfVec w) := by
  simp [bitsOfVec, List.zipWith_map]

/-- The position `k` of a vector holds element `k` of its sequence (00_scope.md rules R7, R8). -/
theorem bitAt_vecOfBits {bits : List Bool} (hlen : bits.length = n) {k : Nat} (hk : k < n) :
    bitAt (vecOfBits n bits) (k + 1) = bits.getD k false := by
  rw [← congrArg (·.getD k false) (bitsOfVec_vecOfBits_of_length hlen)]
  simp [bitsOfVec, hk]

variable (rate : Nat) (draws : List Nat)

/-- Which bits of block `m` of a pass flip, counted from 0 (43_channel.md rule R117; 20_memory.md rule R45). -/
def blockFlips (m : Nat) : List Bool := ((draws.drop (7 * m)).take 7).map fun u => decide (u < rate)

/-- The flips of block `m` as a word: the received word is the codeword exclusive-or this one. -/
def flipWord (m : Nat) : Codeword := vecOfBits 7 (blockFlips rate draws m)

/-- The first block's draws are not those of the others. -/
theorem blockFlips_succ (m : Nat) : blockFlips rate draws (m + 1) = blockFlips rate (draws.drop 7) m := by
  rw [blockFlips, blockFlips, List.drop_drop, Nat.mul_add, Nat.add_comm]

/-- The same for the words that carry the flips. -/
theorem flipWord_succ (m : Nat) : flipWord rate draws (m + 1) = flipWord rate (draws.drop 7) m :=
  congrArg (vecOfBits 7) (blockFlips_succ rate draws m)

/-- A block with all its draws is full. -/
theorem blockFlips_length {draws : List Nat} {m : Nat} (hlen : 7 * (m + 1) ≤ draws.length) :
    (blockFlips rate draws m).length = 7 := by
  rw [blockFlips, List.length_map, List.length_take, List.length_drop]
  omega

/-- The number of flips of a block (42_decoder.md rule R100). -/
theorem weight_flipWord {draws : List Nat} {m : Nat} (hlen : 7 * (m + 1) ≤ draws.length) :
    weight (flipWord rate draws m) = (blockFlips rate draws m).count true := by
  rw [weight, flipWord, bitsOfVec_vecOfBits_of_length (blockFlips_length rate hlen), List.count_eq_length_filter]
  exact congrArg List.length (List.filter_congr fun b _ => (beq_true b).symm)

/-- No flip of a block fell on a data position, 3, 5, 6 or 7 (42_decoder.md rule R95). -/
theorem extractData_flipWord_eq_zero_iff {draws : List Nat} {m : Nat} (hlen : 7 * (m + 1) ≤ draws.length) :
    extractData (flipWord rate draws m) = 0#4
      ↔ ([2, 4, 5, 6].any fun k => (blockFlips rate draws m).getD k false) = false := by
  have hbit := fun k => bitAt_vecOfBits (k := k) (blockFlips_length rate hlen)
  rw [extractData_eq_zero_iff, flipWord]
  simp [hbit]

/-- The words of a stream after its first block (44_host_pipeline.md rule R134). -/
theorem wordsOf_append {block : List Bool} (hblock : block.length = 7) (rest : List Bool) :
    wordsOf (block ++ rest) = vecOfBits 7 block :: wordsOf rest := by
  rw [wordsOf, blocksOf7_append hblock, List.map_cons, wordsOf]

/-- The pass makes of a codeword the word with the block's flips (43_channel.md rule R121 item 3). -/
theorem vecOfBits_noisy (c : Codeword) (hlen : 7 ≤ draws.length) :
    vecOfBits 7 (((bitsOfVec c).zip (draws.take 7)).map (noisyBit rate)) = c ^^^ flipWord rate draws 0 := by
  have hflips : (draws.take 7).map (fun u => decide (u < rate)) = bitsOfVec (flipWord rate draws 0) :=
    (bitsOfVec_vecOfBits_of_length (blockFlips_length (m := 0) rate hlen)).symm
  rw [map_noisyBit_zip, hflips, ← bitsOfVec_xor, vecOfBits_bitsOfVec]

/-- The received words of a noisy stream are its codewords with the flips of their blocks (44_host_pipeline.md
rules R133, R134). -/
theorem wordsOf_noisy (codewords : List Codeword) {draws : List Nat} (hlen : 7 * codewords.length ≤ draws.length) :
    wordsOf (((codewords.flatMap bitsOfVec).zip draws).map (noisyBit rate))
      = codewords.mapIdx fun m c => c ^^^ flipWord rate draws m := by
  induction codewords generalizing draws with
  | nil => rfl
  | cons c cs ih =>
    rw [List.length_cons] at hlen
    have hfirst : (bitsOfVec c).length = (draws.take 7).length := by simp; omega
    have hsplit : (((c :: cs).flatMap bitsOfVec).zip draws).map (noisyBit rate)
        = ((bitsOfVec c).zip (draws.take 7)).map (noisyBit rate)
          ++ ((cs.flatMap bitsOfVec).zip (draws.drop 7)).map (noisyBit rate) := by
      rw [← List.map_append, ← List.zip_append hfirst, List.take_append_drop, List.flatMap_cons]
    rw [hsplit, wordsOf_append (by simp; omega), vecOfBits_noisy rate draws c (by omega), ih (by simp; omega),
      List.mapIdx_cons]
    simp only [flipWord_succ]

end NoisyWords

section ReceivedBytes

/-- The two Symbols of a byte, high nibble first (44_host_pipeline.md rule R131). -/
def byteSymbols (v : BitVec 8) : List Symbol := [v.extractLsb' 4 4, v.extractLsb' 0 4]

/-- The codewords of a payload, in order (44_host_pipeline.md rules R131, R132). -/
def codewordsOf (payload : List (BitVec 8)) : List Codeword := (payload.flatMap byteSymbols).map encodeSymbol

/-- A byte has two codewords, the high nibble's first. -/
theorem codewordsOf_cons (v : BitVec 8) (payload : List (BitVec 8)) :
    codewordsOf (v :: payload)
      = encodeSymbol (v.extractLsb' 4 4) :: encodeSymbol (v.extractLsb' 0 4) :: codewordsOf payload := rfl

/-- Two codewords a byte (44_host_pipeline.md rule R132). -/
theorem codewordsOf_length (payload : List (BitVec 8)) : (codewordsOf payload).length = 2 * payload.length := by
  induction payload with
  | nil => rfl
  | cons v payload ih =>
    rw [codewordsOf_cons, List.length_cons, List.length_cons, List.length_cons, ih]
    omega

/-- Two Symbols make a byte exactly if they are its nibbles (44_host_pipeline.md rule R135). -/
theorem append_eq_byte_iff (hi lo : Symbol) (v : BitVec 8) :
    hi ++ lo = v ↔ hi = v.extractLsb' 4 4 ∧ lo = v.extractLsb' 0 4 := by
  constructor
  · rintro rfl
    exact ⟨BitVec.extractLsb'_append_eq_left.symm, BitVec.extractLsb'_append_eq_right.symm⟩
  · rintro ⟨rfl, rfl⟩
    exact nibbles_append v

/-- The byte of two decodes is made of the Symbols they answer (44_host_pipeline.md rule R135). -/
theorem decByteResult_decodeOutputs (correctErrors : Bool) (a b : Codeword) :
    decByteResult (decodeOutputs correctErrors a) (decodeOutputs correctErrors b)
      = (decodeReceived correctErrors a).1 ++ (decodeReceived correctErrors b).1 := by
  have nibble : ∀ s : Symbol, (s.zeroExtend 7).extractLsb' 0 4 = s := by decide
  simp only [decByteResult, decodeOutputs, resultOutputs, nibble]
  rw [BitVec.append_def, BitVec.shiftLeftZeroExtend_eq, BitVec.setWidth'_eq]

/-- What a decoder makes of the byte `v` whose two codewords had the flips `e` and `f`. -/
def receivedByte (correctErrors : Bool) (v : BitVec 8) (e f : Codeword) : BitVec 8 :=
  (decodeReceived correctErrors (encodeSymbol (v.extractLsb' 4 4) ^^^ e)).1
    ++ (decodeReceived correctErrors (encodeSymbol (v.extractLsb' 0 4) ^^^ f)).1

/-- A corrected byte is right exactly if each of its blocks had at most one flip (44_host_pipeline.md rule R141). -/
theorem receivedByte_true_eq_iff (v : BitVec 8) (e f : Codeword) :
    receivedByte true v e f = v ↔ weight e ≤ 1 ∧ weight f ≤ 1 := by
  rw [receivedByte, append_eq_byte_iff, decodeReceived_true_codeword_xor, decodeReceived_true_codeword_xor]

/-- An uncorrected byte is right exactly if no flip of its blocks reached the data (44_host_pipeline.md rule R141). -/
theorem receivedByte_false_eq_iff (v : BitVec 8) (e f : Codeword) :
    receivedByte false v e f = v ↔ extractData e = 0#4 ∧ extractData f = 0#4 := by
  rw [receivedByte, append_eq_byte_iff, decodeReceived_false, decodeReceived_false, extractData_codeword_xor_eq_iff,
    extractData_codeword_xor_eq_iff]

/-- Decoding the words of a payload whose block `m` had the flips `e m`, byte by byte (44_host_pipeline.md rules R134,
R135). -/
theorem reassemble_decodes (correctErrors : Bool) (payload : List (BitVec 8)) (e : Nat → Codeword) :
    reassemble (((codewordsOf payload).mapIdx fun m c => c ^^^ e m).map (decodeOutputs correctErrors))
      = payload.mapIdx fun j v => receivedByte correctErrors v (e (2 * j)) (e (2 * j + 1)) := by
  induction payload generalizing e with
  | nil => rfl
  | cons v payload ih =>
    rw [codewordsOf_cons, List.mapIdx_cons, List.mapIdx_cons, List.map_cons, List.map_cons, reassemble,
      decByteResult_decodeOutputs, ih fun m => e (m + 1 + 1), List.mapIdx_cons]
    rfl

/-- What a decoder makes of a payload after a pass at `rate` with `draws`: byte `j` lies in the blocks `2 j` and `2 j + 1`. -/
def receivedPayload (correctErrors : Bool) (rate : Nat) (draws : List Nat) (payload : List (BitVec 8)) : List (BitVec 8) :=
  payload.mapIdx fun j v => receivedByte correctErrors v (flipWord rate draws (2 * j)) (flipWord rate draws (2 * j + 1))

/-- No byte is lost or added (44_host_pipeline.md rule R138). -/
@[simp] theorem receivedPayload_length (correctErrors : Bool) (rate : Nat) (draws : List Nat) (payload : List (BitVec 8)) :
    (receivedPayload correctErrors rate draws payload).length = payload.length := List.length_mapIdx

/-- The first byte lies in the first two blocks, whose 14 draws are not those of the others. -/
theorem receivedPayload_cons (correctErrors : Bool) (rate : Nat) (draws : List Nat) (v : BitVec 8)
    (payload : List (BitVec 8)) :
    receivedPayload correctErrors rate draws (v :: payload)
      = receivedByte correctErrors v (flipWord rate draws 0) (flipWord rate draws 1)
        :: receivedPayload correctErrors rate (draws.drop 14) payload := by
  have htwo : ∀ m, flipWord rate draws (m + 1 + 1) = flipWord rate (draws.drop 14) m := fun m => by
    rw [flipWord_succ, flipWord_succ, List.drop_drop]
  rw [receivedPayload, List.mapIdx_cons, receivedPayload]
  simp only [← htwo]
  rfl

/-- A received byte is right exactly if its two blocks spared it. -/
theorem receivedPayload_getElem?_eq_iff (correctErrors : Bool) (rate : Nat) (draws : List Nat) {payload : List (BitVec 8)}
    {j : Nat} (hj : j < payload.length) :
    (receivedPayload correctErrors rate draws payload)[j]? = payload[j]?
      ↔ receivedByte correctErrors payload[j] (flipWord rate draws (2 * j)) (flipWord rate draws (2 * j + 1))
          = payload[j] := by
  rw [receivedPayload, List.getElem?_mapIdx, List.getElem?_eq_getElem hj, Option.map_some, Option.some_inj]

end ReceivedBytes

section WrongBytes

/-- The number of bytes received that differ from those sent (44_host_pipeline.md rule R142). -/
def wrongBytes (received sent : List (BitVec 8)) : Nat := ((received.zip sent).filter fun x => x.1 != x.2).length

/-- A byte counts if it differs. -/
theorem wrongBytes_cons (a b : BitVec 8) (received sent : List (BitVec 8)) :
    wrongBytes (a :: received) (b :: sent) = (if a = b then 0 else 1) + wrongBytes received sent := by
  rw [wrongBytes, List.zip_cons_cons, wrongBytes]
  by_cases hab : a = b <;> simp [hab, Nat.add_comm]

/-- At most every byte is wrong. -/
theorem wrongBytes_le_length (received sent : List (BitVec 8)) : wrongBytes received sent ≤ sent.length := by
  refine (List.length_filter_le ..).trans ?_
  rw [List.length_zip]
  exact Nat.min_le_right ..

/-- With no byte wrong, what was received is what was sent. -/
theorem eq_of_wrongBytes_eq_zero : ∀ {received sent : List (BitVec 8)}, received.length = sent.length →
    wrongBytes received sent = 0 → received = sent
  | [], [], _, _ => rfl
  | a :: received, b :: sent, hlen, hzero => by
    rw [wrongBytes_cons, Nat.add_eq_zero_iff] at hzero
    obtain ⟨hab, hrest⟩ := hzero
    have hhead : a = b := by simpa using hab
    rw [hhead, eq_of_wrongBytes_eq_zero (Nat.succ.inj hlen) hrest]

/-- The flips of the bits of a payload of `bytes` bytes (43_channel.md rule R117). -/
def passFlips (rate : Nat) (draws : List Nat) (bytes : Nat) : List Bool :=
  (draws.take (14 * bytes)).map fun u => decide (u < rate)

/-- The flips of a payload begin with the two blocks of its first byte. -/
theorem passFlips_succ (rate : Nat) (draws : List Nat) (bytes : Nat) :
    passFlips rate draws (bytes + 1)
      = blockFlips rate draws 0 ++ (blockFlips rate draws 1 ++ passFlips rate (draws.drop 14) bytes) := by
  have hbits : 14 * (bytes + 1) = 7 + (7 + 14 * bytes) := by omega
  rw [passFlips, hbits, List.take_add, List.take_add, List.drop_drop, List.map_append, List.map_append]
  rfl

/-- Each wrong byte has one or two uncorrectable blocks, and each right byte none (44_host_pipeline.md rule R142). -/
theorem wrongBytes_bounds (rate : Nat) (payload : List (BitVec 8)) {draws : List Nat}
    (hlen : 14 * payload.length ≤ draws.length) :
    wrongBytes (receivedPayload true rate draws payload) payload
        ≤ uncorrectableBlocks (passFlips rate draws payload.length)
      ∧ uncorrectableBlocks (passFlips rate draws payload.length)
        ≤ 2 * wrongBytes (receivedPayload true rate draws payload) payload := by
  induction payload generalizing draws with
  | nil => exact ⟨le_rfl, le_rfl⟩
  | cons v payload ih =>
    rw [List.length_cons] at hlen
    have hfirst : 7 * (0 + 1) ≤ draws.length := by omega
    have hsecond : 7 * (1 + 1) ≤ draws.length := by omega
    obtain ⟨hle, hge⟩ := ih (draws := draws.drop 14) (by rw [List.length_drop]; omega)
    have hright := receivedByte_true_eq_iff v (flipWord rate draws 0) (flipWord rate draws 1)
    rw [weight_flipWord rate hfirst, weight_flipWord rate hsecond] at hright
    rw [receivedPayload_cons, wrongBytes_cons, List.length_cons, passFlips_succ,
      uncorrectableBlocks_append (blockFlips_length rate hfirst),
      uncorrectableBlocks_append (blockFlips_length rate hsecond)]
    by_cases hv : receivedByte true v (flipWord rate draws 0) (flipWord rate draws 1) = v
    · obtain ⟨hone, hone'⟩ := hright.mp hv
      rw [if_pos hv, if_neg (by omega), if_neg (by omega)]
      omega
    · have hmany := mt hright.mpr hv
      rw [if_neg hv]
      split <;> split <;> omega

end WrongBytes
section WithoutNoise

/-- No draw is below rate 0 (43_channel.md rule R117). -/
theorem map_draws_rate_zero (draws : List Nat) :
    (draws.map fun u => decide (u < 0)) = List.replicate draws.length false := by
  simp only [Nat.not_lt_zero, decide_false, List.map_const']

/-- A sequence of zeros has value 0 (40_bit_conversion.md rule R70). -/
theorem bitsToInt_replicate_false (n : Nat) : bitsToInt (List.replicate n false) = 0 := by
  induction n with
  | zero => rfl
  | succ n ih => rw [List.replicate_succ, bitsToInt_false_cons, ih]

/-- At rate 0 no block has a flip. -/
theorem flipWord_rate_zero (draws : List Nat) (m : Nat) : flipWord 0 draws m = 0#7 := by
  rw [flipWord, blockFlips, map_draws_rate_zero, vecOfBits, bitsToInt_replicate_false]

/-- At rate 0 both decoders answer the payload sent (44_host_pipeline.md rule R140). -/
theorem receivedPayload_rate_zero (correctErrors : Bool) (draws : List Nat) (payload : List (BitVec 8)) :
    receivedPayload correctErrors 0 draws payload = payload := by
  have hbyte : ∀ v : BitVec 8, receivedByte correctErrors v 0#7 0#7 = v := fun v => by
    rw [receivedByte, BitVec.xor_zero, BitVec.xor_zero, decodeReceived_encodeSymbol, decodeReceived_encodeSymbol,
      nibbles_append]
  induction payload generalizing draws with
  | nil => rfl
  | cons v payload ih => rw [receivedPayload_cons, flipWord_rate_zero, flipWord_rate_zero, hbyte, ih]

end WithoutNoise

section PipelineRuns

variable {p : Params} {h : Ham74 p}

/-- A run of operations that are answered one like the other collects their outputs and leaves the machine ready and
unfaulted. -/
theorem runOps_map_of_answers {α : Type} {op : α → AsmOp} {out : α → Outputs} (hans : ∀ a, Answers p (op a) (out a))
    (l : List α) (hr : State.Ready ⟨p, h⟩) (hf : h.fault = false) :
    ∃ g : Ham74 p, runOps (l.map op) ⟨p, h⟩ = .ok (l.map out, ⟨p, g⟩) ∧ State.Ready ⟨p, g⟩ ∧ g.fault = false := by
  refine runOps_of_answers ?_ hr hf
  rw [List.forall₂_map_left_iff, List.forall₂_map_right_iff]
  exact List.forall₂_same.mpr fun a _ => hans a

/-- The ENC operations of a payload are those of its Symbols (44_host_pipeline.md rules R131, R132). -/
theorem encOps_eq (payload : List (BitVec 8)) :
    encOps payload = (payload.flatMap byteSymbols).map fun s => .enc s.toNat := by
  rw [encOps, List.map_flatMap]
  simp only [encByte_toNat]
  rfl

/-- Steps 1 and 2 give the codewords of the payload as the clean stream (44_host_pipeline.md rules R131, R132). -/
theorem runOps_encOps (payload : List (BitVec 8)) (hr : State.Ready ⟨p, h⟩) (hf : h.fault = false) :
    ∃ (encoded : List Outputs) (g : Ham74 p), runOps (encOps payload) ⟨p, h⟩ = .ok (encoded, ⟨p, g⟩)
      ∧ streamOf encoded = (codewordsOf payload).flatMap bitsOfVec ∧ State.Ready ⟨p, g⟩ ∧ g.fault = false := by
  obtain ⟨g, hrun, hg⟩ := runOps_map_of_answers answers_enc (payload.flatMap byteSymbols) hr hf
  refine ⟨_, g, by rw [encOps_eq, hrun], ?_, hg⟩
  rw [streamOf, codewordsOf, List.flatMap_map, List.flatMap_map]
  rfl

/-- The clean stream has 14 bits a byte (44_host_pipeline.md rule R132). -/
theorem length_flatMap_bitsOfVec_codewordsOf (payload : List (BitVec 8)) :
    ((codewordsOf payload).flatMap bitsOfVec).length = 14 * payload.length := by
  have hblock : (codewordsOf payload).map (fun c => (bitsOfVec c).length) = List.replicate (2 * payload.length) 7 := by
    simp only [bitsOfVec_length, List.map_const', codewordsOf_length]
  rw [List.length_flatMap, hblock, List.sum_replicate_nat]
  omega

/-- Step 4 decodes the words of a whole number of bytes both ways (44_host_pipeline.md rules R134, R135). -/
theorem decodeStage_of_length {noisy : List Bool} (hlen : noisy.length % 14 = 0) (hr : State.Ready ⟨p, h⟩)
    (hf : h.fault = false) :
    ∃ g : Ham74 p, decodeStage noisy ⟨p, h⟩
        = .ok (reassemble ((wordsOf noisy).map (decodeOutputs true)), reassemble ((wordsOf noisy).map (decodeOutputs false)),
            ⟨p, g⟩)
      ∧ State.Ready ⟨p, g⟩ ∧ g.fault = false := by
  obtain ⟨k, hdecc, hkr, hkf⟩ := runOps_map_of_answers answers_decc (wordsOf noisy) hr hf
  obtain ⟨g, hdecn, hg⟩ := runOps_map_of_answers answers_decn (wordsOf noisy) hkr hkf
  refine ⟨g, ?_, hg⟩
  simp only [decodeStage, hlen, hdecc, hdecn, ne_eq, not_true_eq_false, if_false]

/-- Two sequences are paired over the length of the first, if that is the shorter. -/
theorem zipWith_take {α β γ : Type} (f : α → β → γ) {as : List α} {bs : List β} (hlen : as.length ≤ bs.length) :
    List.zipWith f as (bs.take as.length) = List.zipWith f as bs := by
  rw [List.zipWith_eq_zipWith_take_min (l₁ := as) (l₂ := bs), Nat.min_eq_left hlen, List.take_length]

/-- The flips of a stream are those of its draws; further draws are not used (44_host_pipeline.md rule R133). -/
theorem map_drawFlips_zip_take {bits : List Bool} (rate : Nat) {draws : List Nat} (hlen : bits.length ≤ draws.length) :
    (bits.zip draws).map (drawFlips rate) = (draws.take bits.length).map fun u => decide (u < rate) := by
  have htake : bits.zip draws = bits.zip (draws.take bits.length) := (zipWith_take Prod.mk hlen).symm
  rw [htake, map_drawFlips_zip (List.length_take_of_le hlen)]

/-- A run of the pipeline within its limits, in closed form (44_host_pipeline.md rules R130 to R136): the two payloads from
the flips of their blocks, and the statistics of those flips. -/
theorem runPipeline_eq {payload : List (BitVec 8)} {rate : Nat} {draws : List Nat} (hr : State.Ready ⟨p, h⟩)
    (hf : h.fault = false) (hrate : rate ≤ 2 ^ p.w) (hlimit : payload.length ≤ maxPayloadBytes p)
    (hlen : 14 * payload.length ≤ draws.length) (hdraws : ∀ u ∈ draws, u < 2 ^ p.w) :
    ∃ g : Ham74 p, runPipeline payload rate draws ⟨p, h⟩
        = .ok (⟨receivedPayload true rate draws payload, receivedPayload false rate draws payload,
            ⟨14 * payload.length, (passFlips rate draws payload.length).count true,
              uncorrectableBlocks (passFlips rate draws payload.length)⟩⟩, ⟨p, g⟩)
      ∧ g.fault = false := by
  have hstream := length_flatMap_bitsOfVec_codewordsOf payload
  have hroom : 14 * payload.length ≤ 2 ^ p.cntw - 1 := by
    rw [maxPayloadBytes] at hlimit
    omega
  obtain ⟨encoded, g1, henc, hclean, hr1, hf1⟩ := runOps_encOps payload hr hf
  obtain ⟨begun, injected, g2, hpassed, hnoisy, hr2, hpass⟩ :=
    runOps_passOps hr1 hf1 hrate (hstream.trans_le hroom) hdraws
  have hflips := map_drawFlips_zip_take rate (hstream.trans_le hlen)
  rw [hstream, ← passFlips] at hflips
  rw [hflips] at hpass
  have hcount : (passFlips rate draws payload.length).length = 14 * payload.length := by
    rw [passFlips, List.length_map, List.length_take_of_le hlen]
  have hnoisyLength : (injected.map resultBit).length % 14 = 0 := by
    rw [hnoisy, List.length_map, List.length_zip, hstream, Nat.min_eq_left hlen, Nat.mul_mod_right]
  obtain ⟨g3, hdecoded, -, hf3⟩ := decodeStage_of_length hnoisyLength hr2 hpass.fault
  have hwords : 7 * (codewordsOf payload).length ≤ draws.length := by
    rw [codewordsOf_length]
    omega
  rw [hnoisy, wordsOf_noisy rate _ hwords, reassemble_decodes, reassemble_decodes, ← hnoisy] at hdecoded
  refine ⟨g3, ?_, hf3⟩
  simp only [runPipeline, henc, hclean, hstream, Nat.not_lt.mpr hlen, if_false, hpassed, List.tail_cons, hdecoded,
    hpass.statsOf, hcount]
  rfl

/-- A pass uses one draw a bit (44_host_pipeline.md rule R133). -/
theorem passOps_take (rate : Nat) {bits : List Bool} {draws : List Nat} (hlen : bits.length ≤ draws.length) :
    passOps rate bits (draws.take bits.length) = passOps rate bits draws := by
  rw [passOps, passOps, zipWith_take _ hlen]

/-- A run of the pipeline does not use the draws after the first 14 a byte (44_host_pipeline.md rules R130, R133). -/
theorem runPipeline_take {payload : List (BitVec 8)} (rate : Nat) {draws : List Nat} (hr : State.Ready ⟨p, h⟩)
    (hf : h.fault = false) (hlen : 14 * payload.length ≤ draws.length) :
    runPipeline payload rate (draws.take (14 * payload.length)) ⟨p, h⟩ = runPipeline payload rate draws ⟨p, h⟩ := by
  have hstream := length_flatMap_bitsOfVec_codewordsOf payload
  obtain ⟨encoded, g, henc, hclean, -⟩ := runOps_encOps payload hr hf
  have hpass := passOps_take rate (hstream.trans_le hlen)
  rw [hstream] at hpass
  simp only [runPipeline, henc, hclean, hpass, hstream, List.length_take_of_le hlen, Nat.not_lt.mpr hlen, lt_irrefl,
    if_false]

end PipelineRuns

section CallsOfThePipeline

/-- What a run that met no `ERR` may leave of a machine: one that is ready, with the same parameters, and unfaulted if it was
so before. -/
structure Leaves (s t : State) : Prop where
  ready : t.Ready
  params : t.params = s.params
  unfaulted : s.ham.fault = false → t.ham.fault = false

/-- What a run that is over may leave of a machine: the same, but after an `ERR` it may have faulted; an error of the host's own
faults nothing (60_exceptions.md rule R153). -/
structure Fails (s : State) (f : Failure) : Prop where
  ready : f.state.Ready
  params : f.state.params = s.params
  unfaulted : f.error ≠ .deviceError → s.ham.fault = false → f.state.ham.fault = false

variable {s t u : State} {f : Failure}

/-- One run after another. -/
theorem Leaves.trans (hst : Leaves s t) (htu : Leaves t u) : Leaves s u where
  ready := htu.ready
  params := htu.params.trans hst.params
  unfaulted := htu.unfaulted ∘ hst.unfaulted

/-- A run that is over, after one that met no `ERR`. -/
theorem Leaves.trans_fails (hst : Leaves s t) (hf : Fails t f) : Fails s f where
  ready := hf.ready
  params := hf.params.trans hst.params
  unfaulted herror := hf.unfaulted herror ∘ hst.unfaulted

/-- An error of the host's own leaves the machine as the run before it did. -/
theorem Leaves.fails (hst : Leaves s t) (e : HostError) : Fails s ⟨e, t⟩ where
  ready := hst.ready
  params := hst.params
  unfaulted _ := hst.unfaulted

/-- A run of operations from a ready machine (70_reset_and_hazards.md rule R180). -/
theorem runOps_leaves (hr : s.Ready) (ops : List AsmOp) :
    (∃ outs t, runOps ops s = .ok (outs, t) ∧ Leaves s t) ∨ ∃ f, runOps ops s = .error f ∧ Fails s f := by
  obtain ⟨p, h⟩ := s
  rcases runOps_cases ops hr with ⟨outs, g, hrun, -, hg, hgf⟩ | ⟨g, hrun, hg⟩ | ⟨g, hrun, hg, hgf, -⟩
  · exact .inl ⟨outs, ⟨p, g⟩, hrun, hg, rfl, fun hf => hgf (.inl hf)⟩
  · exact .inr ⟨_, hrun, hg, rfl, fun herror => absurd rfl herror⟩
  · exact .inr ⟨_, hrun, hg, rfl, fun _ => hgf⟩

/-- Step 4 from a ready machine (44_host_pipeline.md rules R134, R137). -/
theorem decodeStage_leaves (hr : s.Ready) (noisy : List Bool) :
    (∃ corrected uncorrected t, decodeStage noisy s = .ok (corrected, uncorrected, t) ∧ Leaves s t)
      ∨ ∃ f, decodeStage noisy s = .error f ∧ Fails s f := by
  have hself : Leaves s s := ⟨hr, rfl, id⟩
  by_cases hlen : noisy.length % 14 = 0
  · simp only [decodeStage, hlen, ne_eq, not_true_eq_false, if_false]
    rcases runOps_leaves hr ((wordsOf noisy).map fun w => .decc w.toNat) with ⟨corrected, t, hdecc, ht⟩ | ⟨f, hdecc, hf⟩
    · rcases runOps_leaves ht.ready ((wordsOf noisy).map fun w => .decn w.toNat) with
        ⟨uncorrected, u, hdecn, hu⟩ | ⟨f, hdecn, hf⟩
      · exact .inl ⟨reassemble corrected, reassemble uncorrected, u, by simp only [hdecc, hdecn], ht.trans hu⟩
      · exact .inr ⟨f, by simp only [hdecc, hdecn], ht.trans_fails hf⟩
    · exact .inr ⟨f, by simp only [hdecc], hf⟩
  · exact .inr ⟨_, if_pos hlen, hself.fails _⟩

/-- A run of the pipeline from a ready machine, whatever is asked of it (44_host_pipeline.md rule R139). -/
theorem runPipeline_leaves (hr : s.Ready) (payload : List (BitVec 8)) (rate : Nat) (draws : List Nat) :
    (∃ r t, runPipeline payload rate draws s = .ok (r, t) ∧ Leaves s t)
      ∨ ∃ f, runPipeline payload rate draws s = .error f ∧ Fails s f := by
  unfold runPipeline
  rcases runOps_leaves hr (encOps payload) with ⟨encoded, s1, henc, h1⟩ | ⟨f, henc, hf⟩
  · by_cases hfew : draws.length < (streamOf encoded).length
    · exact .inr ⟨⟨.tooFewDraws, s1⟩, by simp only [henc, hfew, if_true], h1.fails _⟩
    · rcases runOps_leaves h1.ready (passOps rate (streamOf encoded) draws) with
        ⟨injected, s2, hpass, h2⟩ | ⟨f, hpass, hf⟩
      · rcases decodeStage_leaves h2.ready (injected.tail.map resultBit) with
          ⟨corrected, uncorrected, s3, hdec, h3⟩ | ⟨f, hdec, hf⟩
        · exact .inl ⟨⟨corrected, uncorrected, statsOf s2⟩, s3, by simp only [henc, hfew, if_false, hpass, hdec],
            (h1.trans h2).trans h3⟩
        · exact .inr ⟨f, by simp only [henc, hfew, if_false, hpass, hdec], (h1.trans h2).trans_fails hf⟩
      · exact .inr ⟨f, by simp only [henc, hfew, if_false, hpass], h1.trans_fails hf⟩
  · exact .inr ⟨f, by simp only [henc], hf⟩

/-- What the host does after a failure leaves a machine for the next run (44_host_pipeline.md rule R139). -/
theorem Fails.leaves_recover (hf : Fails s f) : Leaves s (recover f) := by
  obtain ⟨e, ⟨p, g⟩⟩ := f
  obtain ⟨hready, hparams, hunfaulted⟩ := hf
  cases e with
  | deviceError =>
    rw [recover_deviceError, hostReset_eq g hready.1]
    exact ⟨⟨hready.1, rfl⟩, hparams, fun _ => rfl⟩
  | operandOutOfRange | noResult | tooFewDraws | domainError => exact ⟨hready, hparams, hunfaulted nofun⟩

/-- A call from a ready machine answers a result and leaves a machine for the next; after an `ERR` that is the one the host has
reset (44_host_pipeline.md rule R139; 70_reset_and_hazards.md rule R180). -/
theorem callPipeline_leaves (hr : s.Ready) (c : PipelineCall) :
    Leaves s (callPipeline c s).2
      ∧ ((callPipeline c s).1 = .error .deviceError → ∃ g : State, g.Ready ∧ (callPipeline c s).2 = hostReset g) := by
  rcases runPipeline_leaves hr c.payload c.rate c.draws with ⟨r, t, hrun, ht⟩ | ⟨f, hrun, hf⟩
  · have hcall : callPipeline c s = (.ok r, t) := by simp only [callPipeline, hrun]
    rw [hcall]
    exact ⟨ht, nofun⟩
  · have hcall : callPipeline c s = (.error f.error, recover f) := by simp only [callPipeline, hrun]
    rw [hcall]
    refine ⟨hf.leaves_recover, fun hdevice => ⟨f.state, hf.ready, ?_⟩⟩
    rw [recover, Except.error.inj hdevice]

/-- Calls one after another from a ready machine: one result a call, and a machine for the next (44_host_pipeline.md
rule R139). -/
theorem callPipelines_leaves (hr : s.Ready) (calls : List PipelineCall) :
    (callPipelines calls s).1.length = calls.length ∧ Leaves s (callPipelines calls s).2 := by
  induction calls generalizing s with
  | nil => exact ⟨rfl, hr, rfl, id⟩
  | cons c calls ih =>
    obtain ⟨hcall, -⟩ := callPipeline_leaves hr c
    obtain ⟨hlen, hrest⟩ := ih hcall.ready
    exact ⟨congrArg (· + 1) hlen, hcall.trans hrest⟩

end CallsOfThePipeline

section FaultedCalls

variable {p : Params} {h : Ham74 p}

/-- A faulted machine answers the first operation of a run with an `ERR` (60_exceptions.md rule R155). -/
theorem runOps_of_fault (hr : State.Ready ⟨p, h⟩) (hf : h.fault = true) {op : AsmOp}
    (hfit : asmOperandsFit p op = true) (ops : List AsmOp) :
    ∃ t, runOps (op :: ops) ⟨p, h⟩ = .error ⟨.deviceError, t⟩ := by
  obtain ⟨i, hi, -⟩ := assemble_word_of_fit hfit
  rcases runOps_cons_cases hr op ops with ⟨hnone, -⟩ | ⟨g, -, hstays, ⟨-, hrun⟩ | ⟨hg, -⟩⟩
  · exact absurd (hi.symm.trans hnone) nofun
  · exact ⟨⟨p, g⟩, hrun⟩
  · exact absurd ((hstays hf).symm.trans hg) nofun

/-- The first operation that a run of the pipeline issues to a faulted machine, an ENC or without payload the CHBEGIN, meets
an `ERR` (44_host_pipeline.md rule R139). -/
theorem runPipeline_of_fault (hr : State.Ready ⟨p, h⟩) (hf : h.fault = true) (payload : List (BitVec 8)) {rate : Nat}
    (hrate : rate ≤ 2 ^ p.w) (draws : List Nat) :
    ∃ t, runPipeline payload rate draws ⟨p, h⟩ = .error ⟨.deviceError, t⟩ := by
  cases payload with
  | nil =>
    obtain ⟨t, hrun⟩ := runOps_of_fault hr hf (op := .chbegin rate) (decide_eq_true hrate) []
    exact ⟨t, by simp [runPipeline, encOps, runOps, streamOf, passOps, hrun]⟩
  | cons v payload =>
    obtain ⟨t, hrun⟩ := runOps_of_fault hr hf (answers_enc (v.extractLsb' 4 4)).fits
      (.enc (v.extractLsb' 0 4).toNat :: encOps payload)
    have hops : encOps (v :: payload)
        = .enc (v.extractLsb' 4 4).toNat :: .enc (v.extractLsb' 0 4).toNat :: encOps payload := by
      rw [encOps, List.flatMap_cons, encByte_toNat]
      rfl
    exact ⟨t, by simp only [runPipeline, hops, hrun]⟩

/-- The host's reset of a ready machine zeroes the eight state elements (70_reset_and_hazards.md rule R170). -/
theorem hostReset_zeroes {g : State} (hl : g.params.legal = true) :
    (hostReset g).ham.rate = 0 ∧ (hostReset g).ham.totalBits = 0 ∧ (hostReset g).ham.totalFlips = 0
      ∧ (hostReset g).ham.uncorrBlocks = 0 ∧ (hostReset g).ham.pos = 0 ∧ (hostReset g).ham.blkf = 0
      ∧ (hostReset g).ham.fault = false ∧ (hostReset g).ham.fcode = 0 := by
  rw [hostReset_eq g.ham hl]
  exact ⟨rfl, rfl, rfl, rfl, rfl, rfl, rfl, rfl⟩

end FaultedCalls

/-- Settles O56: the run in closed form, and `runPipeline_take`. -/
theorem pipelineRunsToItsEnd : Obligations.PipelineRunsToItsEnd := by
  unfold Obligations.PipelineRunsToItsEnd
  rintro ⟨p, h⟩ payload rate draws hr hf hrate hlimit hlen hdraws
  obtain ⟨g, hrun, hg⟩ := runPipeline_eq hr hf hrate hlimit hlen hdraws
  exact ⟨_, ⟨p, g⟩, hrun, (runPipeline_take rate hr hf hlen).trans hrun, receivedPayload_length ..,
    receivedPayload_length .., rfl, hg, rfl⟩

/-- Settles O57: without flips there is no uncorrectable block, and no block's flips reach a byte. -/
theorem pipelineRoundTripWithoutNoise : Obligations.PipelineRoundTripWithoutNoise := by
  unfold Obligations.PipelineRoundTripWithoutNoise
  rintro ⟨p, h⟩ payload draws hr hf hlimit hlen hdraws
  obtain ⟨g, hrun, -⟩ := runPipeline_eq hr hf (Nat.zero_le _) hlimit hlen hdraws
  rw [receivedPayload_rate_zero, receivedPayload_rate_zero, passFlips, map_draws_rate_zero,
    uncorrectableBlocks_replicate_false, List.count_replicate] at hrun
  exact ⟨⟨p, g⟩, hrun⟩

/-- Settles O58: a byte is right or wrong by the flips of its two blocks, and without an uncorrectable block none is
wrong. -/
theorem pipelineCorrectionBound : Obligations.PipelineCorrectionBound := by
  unfold Obligations.PipelineCorrectionBound
  rintro ⟨p, h⟩ payload rate draws hr hf hrate hlimit hlen hdraws
  obtain ⟨g, hrun, -⟩ := runPipeline_eq hr hf hrate hlimit hlen hdraws
  obtain ⟨hfew, -⟩ := wrongBytes_bounds rate payload hlen
  refine ⟨_, ⟨p, g⟩, hrun, fun hnone => ?allRight, fun j hj => ?byByte⟩
  case allRight =>
    exact eq_of_wrongBytes_eq_zero (receivedPayload_length ..) (Nat.le_zero.mp (hfew.trans_eq hnone))
  case byByte =>
    have hhigh : 7 * (2 * j + 1) ≤ draws.length := by omega
    have hlow : 7 * (2 * j + 1 + 1) ≤ draws.length := by omega
    constructor
    · rw [receivedPayload_getElem?_eq_iff _ _ _ hj, receivedByte_true_eq_iff, weight_flipWord rate hhigh,
        weight_flipWord rate hlow]
      rfl
    · rw [receivedPayload_getElem?_eq_iff _ _ _ hj, receivedByte_false_eq_iff, extractData_flipWord_eq_zero_iff rate hhigh,
        extractData_flipWord_eq_zero_iff rate hlow]
      rfl

/-- Settles O59: `wrongBytes_bounds`. -/
theorem wrongBytesAreBounded : Obligations.WrongBytesAreBounded := by
  unfold Obligations.WrongBytesAreBounded
  rintro ⟨p, h⟩ payload rate draws hr hf hrate hlimit hlen hdraws
  obtain ⟨g, hrun, -⟩ := runPipeline_eq hr hf hrate hlimit hlen hdraws
  obtain ⟨hfew, hmany⟩ := wrongBytes_bounds rate payload hlen
  have hhalf : (uncorrectableBlocks (passFlips rate draws payload.length) + 1) / 2
      ≤ wrongBytes (receivedPayload true rate draws payload) payload := by omega
  exact ⟨_, ⟨p, g⟩, hrun, hhalf, le_min (wrongBytes_le_length ..) hfew⟩

/-- Settles O60: `callPipeline_leaves` for one call, `callPipelines_leaves` for any. -/
theorem hostResetsBeforeTheNextRun : Obligations.HostResetsBeforeTheNextRun := by
  unfold Obligations.HostResetsBeforeTheNextRun
  refine ⟨fun s c hr => ?_, fun calls s hr hf => ?_⟩
  · obtain ⟨hcall, hreset⟩ := callPipeline_leaves hr c
    refine ⟨(callPipeline c s).1, (callPipeline c s).2, rfl, hcall.ready, hcall.params, fun hf hrate => ?faulted,
      fun hdevice => ?zeroed⟩
    case faulted =>
      obtain ⟨t, hrun⟩ := runPipeline_of_fault hr hf c.payload hrate c.draws
      simp only [callPipeline, hrun]
    case zeroed =>
      obtain ⟨g, hg, hresets⟩ := hreset hdevice
      rw [hresets]
      exact hostReset_zeroes hg.1
  · obtain ⟨hlen, hleaves⟩ := callPipelines_leaves hr calls
    exact ⟨hlen, hleaves.ready, hleaves.unfaulted hf⟩

/-- Settles O55: the length is checked before anything is issued. -/
theorem streamLengthIsChecked : Obligations.StreamLengthIsChecked := by
  unfold Obligations.StreamLengthIsChecked
  exact fun noisy s hlen => if_pos hlen

end Sys2Proof.Machine

/-! PROOF. The exceptions (60_exceptions.md): when an instruction's checks pass, what one whose checks pass reports, the
host that checks its commands, and five obligations of that family. -/

namespace Sys2Proof.Machine

section Completion

variable {p : Params} {i : Instr} {h : Ham74 p}

/-- No effect writes `FAULT`: an operation that executes cannot fault (60_exceptions.md rule R157). -/
theorem effectOf_fault (i : Instr) (h : Ham74 p) : (effectOf i h).fault = h.fault := by
  cases i <;> rfl

/-- In an unfaulted machine, an instruction whose checks pass leaves `FAULT` and `FCODE` and reports no error
(60_exceptions.md rule R157). -/
theorem hamOp_completes (hf : h.fault = false) (hc : checkOf i h = none) :
    ∃ o : Outputs, (hamOp i h).out = some o ∧ (hamOp i h).fault = false ∧ (hamOp i h).fcode = h.fcode
      ∧ o.err = false ∧ o.ecode = 0 := by
  have hfault : (hamOp i h).fault = false := by rw [hamOp_of_pass hf hc, effectOf_fault, hf]
  have hfcode : (hamOp i h).fcode = h.fcode := by rw [hamOp_fcode hf, hc, Option.elim_none]
  obtain ⟨o, ho, herr, hecode, -⟩ := hamOp_reports i h
  exact ⟨o, ho, hfault, hfcode, herr.trans hfault, by simp [hecode, hfault]⟩

/-- The checks pass exactly for a well-formed operand, with a rate of at most 1 for CHBEGIN and room in the pass for INJ
(30_encoding.md rule R60; 43_channel.md rule R116). -/
theorem checkOf_eq_none_iff (i : Instr) (h : Ham74 p) :
    checkOf i h = none ↔ i.wellFormed = true
      ∧ (∀ arg, i = .chbegin arg → h.rateIn.toNat ≤ 2 ^ p.w)
      ∧ (∀ arg, i = .inj arg → h.totalBits.toNat ≠ 2 ^ p.cntw - 1) := by
  cases i with
  | enc arg => simp [checkOf, encCheck_eq_none_iff, Instr.wellFormed, encArgFits]
  | chbegin arg => simp [checkOf, chbeginCheck_eq_none_iff, Instr.wellFormed, chbeginArgZero]
  | inj arg => simp [checkOf, injCheck_eq_none_iff, Instr.wellFormed, injArgFits]
  | decn | decc | reservedOp1 | reservedOp6 | reservedOp7 => simp [checkOf, Instr.wellFormed]

/-- What the host of 60_exceptions.md rule R158 has checked of a command. -/
theorem safeIssue_iff (c : Issue p.w) :
    safeIssue c = true ↔ (decode c.cmd).wellFormed = true
      ∧ ∀ arg, decode c.cmd = .chbegin arg → c.rateIn.toNat ≤ 2 ^ p.w := by
  unfold safeIssue
  cases decode c.cmd <;> simp

end Completion

/-- Settles O37: the cause is the code of the first check that applies, and `FAULT` and that check decide between the
refusal, the DomainError and the effect. -/
theorem causeCodesInCheckOrder : Obligations.CauseCodesInCheckOrder := by
  unfold Obligations.CauseCodesInCheckOrder
  intro p h i cause
  have hcause : cause = (checkOf i h).elim 0 causeCode := by
    cases i with
    | enc arg =>
      simp only [cause, checkOf, encCheck_eq, ← Nat.not_le, ite_not]
      split <;> rfl
    | chbegin arg =>
      simp only [cause, checkOf, chbeginCheck_eq]
      split
      · rfl
      · split <;> rfl
    | inj arg =>
      simp only [cause, checkOf, injCheck_eq]
      split
      · rfl
      · split <;> rfl
    | decn | decc | reservedOp1 | reservedOp6 | reservedOp7 => rfl
  split
  next hf => exact exec_of_hamOp (hamOp_of_fault i hf)
  next hne =>
    have hf : h.fault = false := Bool.eq_false_of_not_eq_true hne
    cases hc : checkOf i h with
    | some c =>
      have hcode : causeCode c ≠ 0 := (causeCode_range c).1
      rw [hcause, hc, Option.elim_some, if_pos hcode]
      exact exec_of_hamOp (hamOp_of_check hf hc)
    | none =>
      rw [hcause, hc, Option.elim_none, if_neg (not_not_intro rfl)]
      obtain ⟨o, hcompletes⟩ := hamOp_completes hf hc
      exact ⟨hamOp i h, o, exec_eq_next i ⟨p, h⟩, hcompletes⟩

/-- Settles O35: an operation that changes `FAULT` raises a DomainError, and the code of a cause is 1 to 4. -/
theorem raisingWritesOnlyTheFault : Obligations.RaisingWritesOnlyTheFault := by
  unfold Obligations.RaisingWritesOnlyTheFault
  intro p h g i hf hexec hg
  rw [exec_eq_next, mapHam_mk] at hexec
  cases hexec
  obtain ⟨-, c, hraise⟩ := hamOp_raises_of_fault_ne (i := i) (h := h) (.inl (by simp [hg, hf]))
  obtain ⟨hne, hle⟩ := causeCode_range c
  exact ⟨causeCode c, Nat.pos_of_ne_zero (mt (BitVec.toNat_inj (y := 0#3)).mp hne), hle, hraise⟩

/-- Settles O36: `hamOp_of_fault`. -/
theorem everyOperationIsRefusedWhileFaulted : Obligations.EveryOperationIsRefusedWhileFaulted := by
  unfold Obligations.EveryOperationIsRefusedWhileFaulted
  exact fun p h i hf => exec_of_hamOp (hamOp_of_fault i hf)

/-- Settles O39: what the host has checked, with room in the pass, is what the command's own checks ask. -/
theorem checkedHostNeverSeesAFault : Obligations.CheckedHostNeverSeesAFault := by
  unfold Obligations.CheckedHostNeverSeesAFault
  rintro ⟨p, h⟩ i hr hf hi hsafe hroom
  obtain ⟨hwell, hrate⟩ := (safeIssue_iff i).mp hsafe
  have hpass : checkOf (decode i.cmd) (latch i h.pending h) = none :=
    (checkOf_eq_none_iff _ _).mpr ⟨hwell, hrate, fun arg hinj => hroom ⟨arg, hinj⟩⟩
  obtain ⟨o, ho, hfault, -, herr, -⟩ := hamOp_completes (h := latch i h.pending h) hf hpass
  exact ⟨_, o, step_issueNext hr hi, ho, hfault, herr⟩

/-- Settles O45: `step_of_nothing_pending`. -/
theorem nothingIssuedNothingHappens : Obligations.NothingIssuedNothingHappens := by
  unfold Obligations.NothingIssuedNothingHappens
  exact fun ⟨_, _⟩ hlegal hpending => step_of_nothing_pending hlegal hpending

end Sys2Proof.Machine

/-! PROOF. Reset and hazards (70_reset_and_hazards.md): the obligation of that family. -/

namespace Sys2Proof.Machine

/-- Settles O42: a step with `RST` is `applyReset` on the latched state; the other steps of a faulted machine keep
`FAULT` (`onlyResetClearsTheFault`). -/
theorem resetWinsOverAnyCommand : Obligations.ResetWinsOverAnyCommand := by
  unfold Obligations.ResetWinsOverAnyCommand
  refine ⟨fun p h i rest hlegal hpending hrst => ?zeroes, fun s t hstep hfaulted hcleared => ?clears⟩
  case zeroes =>
    refine ⟨applyReset (latch i rest h), step_of_rst hlegal hpending hrst, ?_⟩
    simp
  case clears =>
    refine (onlyResetClearsTheFault s t hfaulted hstep).resolve_right ?_
    rintro ⟨hstays, -⟩
    simp [hcleared] at hstays

end Sys2Proof.Machine
